-- ==== Sys2Proof/Word.lean ====
section
/-! DEFINITION. The two word types of the block: the byte (the source's octet) and the 16-bit word (`UInt16`), spec/00_scope.md R8. -/

namespace Sys2Proof

/-- A byte (octet): an unsigned 8-bit number (R8). -/
abbrev Byte := BitVec 8

/-- A `UInt16`: every header field and both sequence registers (R6, R8). -/
abbrev Word := BitVec 16

end Sys2Proof
end

