-- ==== Sys2Proof/Config.lean ====
section
/-! DEFINITION. The build-time configuration of the block, spec/00_scope.md R6. It is plain data: State carries it in a field that no command writes, so that every statement quantifies over it (assumption log 4). -/

namespace Sys2Proof

/-- The byte order of the six header words on the wire, `WIRE_ORDER` (R6, R43): `LE` and `BE` are the only admitted values. -/
inductive WireOrder where
  | le
  | be
  deriving DecidableEq, Repr

/-- The parameters of R6 that a build of the block fixes. -/
structure Config where
  /-- `MAX_PAYLOAD`, a natural number with 0 ≤ `MAX_PAYLOAD` ≤ 65535 (R6, OPEN). -/
  maxPayload : Fin 65536
  /-- `WIRE_ORDER` (R6, decided `LE`; `BE` admitted by R44). -/
  wireOrder : WireOrder
  deriving DecidableEq, Repr

/-- `HDR_LEN`: the header is 12 octets long (R6). -/
abbrev hdrLen : Nat := 12

/-- `MAX_FRAME = HDR_LEN + MAX_PAYLOAD`, the size of the reassembly buffer (R6). -/
def Config.maxFrame (c : Config) : Nat := hdrLen + c.maxPayload.val

/-- The reference configuration of every vector of spec/95_test_vectors.md: `MAX_PAYLOAD = 64`, `LE` (R6). -/
def Config.reference : Config := { maxPayload := 64, wireOrder := .le }

end Sys2Proof
end

