-- ==== Sys2Proof/Syntax.lean ====
section
/-! DEFINITION. The block's two kinds of encoded input (spec/30_encoding.md): the six commands of the command port and the sixteen (frame-type, operation) combinations of a frame on the byte stream; one constructor per row of spec/opcode_table.json. -/

namespace Sys2Proof

/-- A decoded header, the record of spec/40_codec.md R80. -/
structure Header where
  /-- frame-type, `opdev[15:14]` (R63). -/
  type : BitVec 2
  /-- operation, `opdev[13:12]` (R64). -/
  op : BitVec 2
  /-- device index, `opdev[11:0]`. -/
  device : BitVec 12
  seq : Word
  reg : Word
  pos : Word
  len : Word
  /-- reserved integrity field, returned unchecked (R67). -/
  crc16 : Word
  /-- frame-type is Request, Acknowledgement or Error (R80). -/
  typeOk : Bool
  /-- `len ≤ MAX_PAYLOAD` (R80). -/
  lenOk : Bool
  deriving DecidableEq, Repr

/-- What a frame holds beside its `opdev` word: the five other header words and the payload octets (R60). -/
structure FrameBody where
  seq : Word
  reg : Word
  pos : Word
  len : Word
  crc16 : Word
  payload : List Byte
  deriving DecidableEq, Repr

/-- The encoded inputs of the block, one constructor per row of the opcode table: the commands with
the operands of R71, and the frames with their device index and the rest of their header and payload. -/
inductive Instr where
  /-- INIT: `cmd = 0001` (R140). -/
  | init
  /-- FILL `r, data`: `cmd = 0010` (R102). -/
  | fill (r : Int) (data : List Byte)
  /-- RELEASE: `cmd = 0011` (R111). -/
  | release
  /-- DECODE `h`: `cmd = 0100` (R81). -/
  | decode (h : List Byte)
  /-- ENCODE `type, op, dev, reg, pos, len, seq`: `cmd = 0101` (R83). -/
  | encode (type op dev reg pos len seq : Word)
  /-- SEQ_NEXT: `cmd = 0110` (R92). -/
  | seqNext
  /-- T0.SYNC: `opdev[15:12] = 0000`, frame-type 0 (unassigned) / Sync (R66). -/
  | t0Sync (device : BitVec 12) (body : FrameBody)
  /-- T0.READ: `opdev[15:12] = 0001`, frame-type 0 (unassigned) / Read (R66). -/
  | t0Read (device : BitVec 12) (body : FrameBody)
  /-- T0.WRITE: `opdev[15:12] = 0010`, frame-type 0 (unassigned) / Write (R66). -/
  | t0Write (device : BitVec 12) (body : FrameBody)
  /-- T0.CHANGE: `opdev[15:12] = 0011`, frame-type 0 (unassigned) / Change (R66). -/
  | t0Change (device : BitVec 12) (body : FrameBody)
  /-- REQ.SYNC: `opdev[15:12] = 0100`, Request / Sync (R66). -/
  | reqSync (device : BitVec 12) (body : FrameBody)
  /-- REQ.READ: `opdev[15:12] = 0101`, Request / Read (R66). -/
  | reqRead (device : BitVec 12) (body : FrameBody)
  /-- REQ.WRITE: `opdev[15:12] = 0110`, Request / Write (R66). -/
  | reqWrite (device : BitVec 12) (body : FrameBody)
  /-- REQ.CHANGE: `opdev[15:12] = 0111`, Request / Change (R66). -/
  | reqChange (device : BitVec 12) (body : FrameBody)
  /-- ACK.SYNC: `opdev[15:12] = 1000`, Acknowledgement / Sync (R66). -/
  | ackSync (device : BitVec 12) (body : FrameBody)
  /-- ACK.READ: `opdev[15:12] = 1001`, Acknowledgement / Read (R66). -/
  | ackRead (device : BitVec 12) (body : FrameBody)
  /-- ACK.WRITE: `opdev[15:12] = 1010`, Acknowledgement / Write (R66). -/
  | ackWrite (device : BitVec 12) (body : FrameBody)
  /-- ACK.CHANGE: `opdev[15:12] = 1011`, Acknowledgement / Change (R66). -/
  | ackChange (device : BitVec 12) (body : FrameBody)
  /-- ERR.SYNC: `opdev[15:12] = 1100`, Error / Sync (R66). -/
  | errSync (device : BitVec 12) (body : FrameBody)
  /-- ERR.READ: `opdev[15:12] = 1101`, Error / Read (R66). -/
  | errRead (device : BitVec 12) (body : FrameBody)
  /-- ERR.WRITE: `opdev[15:12] = 1110`, Error / Write (R66). -/
  | errWrite (device : BitVec 12) (body : FrameBody)
  /-- ERR.CHANGE: `opdev[15:12] = 1111`, Error / Change (R66). -/
  | errChange (device : BitVec 12) (body : FrameBody)
  deriving DecidableEq, Repr

/-- The lines of the command port (R70, R71): the 4-bit code and one line per operand; a command reads
the lines of its own operands. The spec gives the operands' types and no layout: DESIGN CHOICE, assumption log 6. -/
structure CommandPort where
  /-- `cmd[3:0]`. -/
  code : BitVec 4
  /-- FILL's `r`, the signed result of the Transport's `read`. -/
  r : Int := 0
  /-- FILL's `data`, DECODE's `h`. -/
  bytes : List Byte := []
  /-- ENCODE's seven operands. -/
  type : Word := 0
  op : Word := 0
  dev : Word := 0
  reg : Word := 0
  pos : Word := 0
  len : Word := 0
  seq : Word := 0
  deriving DecidableEq, Repr

/-- What the environment offers to the block (R13, R152). -/
inductive Input where
  /-- A command on the command port. -/
  | command (port : CommandPort)
  /-- Octets of the byte stream that the Transport holds and delivers when it is asked for bytes (R101). -/
  | stream (bytes : List Byte)
  deriving DecidableEq, Repr

end Sys2Proof
end

