-- ==== Sys2Proof/WellFormed.lean ====
section
/-! DEFINITION. Which instructions keep the operand contract of spec/30_encoding.md R71 (commands) and R60 (frames). An ill-formed command can still be offered: it raises the fault its rule names. -/

namespace Sys2Proof

/-- A frame's payload has exactly `len` octets (R60). -/
def FrameBody.wf (b : FrameBody) : Bool := b.payload.length == b.len.toNat

/-- The operand contract: FILL has `|data| = max(r, 0)`, DECODE has `|h| ≥ 12` (R71), a frame has
exactly `len` payload octets (R60); the other commands' operands are bounded by their types. -/
def Instr.wf : Instr → Bool
  | .init => true
  | .fill r data => data.length == r.toNat
  | .release => true
  | .decode h => decide (hdrLen ≤ h.length)
  | .encode _ _ _ _ _ _ _ => true
  | .seqNext => true
  | .t0Sync _ b => b.wf
  | .t0Read _ b => b.wf
  | .t0Write _ b => b.wf
  | .t0Change _ b => b.wf
  | .reqSync _ b => b.wf
  | .reqRead _ b => b.wf
  | .reqWrite _ b => b.wf
  | .reqChange _ b => b.wf
  | .ackSync _ b => b.wf
  | .ackRead _ b => b.wf
  | .ackWrite _ b => b.wf
  | .ackChange _ b => b.wf
  | .errSync _ b => b.wf
  | .errRead _ b => b.wf
  | .errWrite _ b => b.wf
  | .errChange _ b => b.wf

end Sys2Proof
end

