-- ==== Sys2Proof/Decode.lean ====
section
/-! DEFINITION. The two decoders (command port, spec/30_encoding.md R70 to R72; frame, R60 to R66), the encoder, and the wire-order helpers, header unpacker and header packer they share (spec/00_scope.md R10, spec/40_codec.md R80, R82). -/

namespace Sys2Proof

/-! ## Bytes and words on the wire (R10) -/

/-- `WORD16(a, b)`: the two bytes of a header field in increasing wire order (R10, R43). -/
def word16 (o : WireOrder) (a b : Byte) : Word :=
  match o with
  | .le => a.setWidth 16 ||| (b.setWidth 16 <<< 8)
  | .be => (a.setWidth 16 <<< 8) ||| b.setWidth 16

/-- `BYTES16(w)`: the two bytes of a header field in increasing wire order (R10). -/
def bytes16 (o : WireOrder) (w : Word) : List Byte :=
  match o with
  | .le => [w.extractLsb' 0 8, w.extractLsb' 8 8]
  | .be => [w.extractLsb' 8 8, w.extractLsb' 0 8]

/-- The twelve header octets of six header words, in the order of R60. -/
def headerOctets (o : WireOrder) (opdev seq reg pos len crc16 : Word) : List Byte :=
  bytes16 o opdev ++ bytes16 o seq ++ bytes16 o reg ++ bytes16 o pos ++ bytes16 o len ++ bytes16 o crc16

/-! ## The codec's two functions (R80, R82) -/

/-- `opdev[15:14]` (R61). -/
def opdevType (w : Word) : BitVec 2 := w.extractLsb' 14 2

/-- `opdev[13:12]` (R61). -/
def opdevOp (w : Word) : BitVec 2 := w.extractLsb' 12 2

/-- `opdev[11:0]` (R61). -/
def opdevDevice (w : Word) : BitVec 12 := w.extractLsb' 0 12

/-- `(type & 0b11) << 14 | (op & 0b11) << 12 | (dev & 0x0FFF)` (R61, R82). -/
def packOpdev (type op dev : Word) : Word :=
  ((type &&& 0b11#16) <<< 14) ||| ((op &&& 0b11#16) <<< 12) ||| (dev &&& 0x0FFF#16)

/-- The flag `type_ok`: frame-type 0 is unassigned (R63, R80). -/
def typeOkFlag (type : BitVec 2) : Bool := type != 0#2

/-- The flag `len_ok`: `len ≤ MAX_PAYLOAD` (R80). -/
def lenOkFlag (c : Config) (len : Word) : Bool := decide (len.toNat ≤ c.maxPayload.val)

/-- The header record of six header words (R62, R80). -/
def headerOfWords (c : Config) (opdev seq reg pos len crc16 : Word) : Header :=
  { type := opdevType opdev, op := opdevOp opdev, device := opdevDevice opdev,
    seq := seq, reg := reg, pos := pos, len := len, crc16 := crc16,
    typeOk := typeOkFlag (opdevType opdev), lenOk := lenOkFlag c len }

/-- `hdr_decode` (R80): the header in the first twelve bytes, later bytes ignored; `none` where fewer
than twelve bytes are given, for which R80 defines nothing. -/
def hdrDecode (c : Config) : List Byte → Option Header
  | h0 :: h1 :: h2 :: h3 :: h4 :: h5 :: h6 :: h7 :: h8 :: h9 :: h10 :: h11 :: _ =>
    some (headerOfWords c (word16 c.wireOrder h0 h1) (word16 c.wireOrder h2 h3)
      (word16 c.wireOrder h4 h5) (word16 c.wireOrder h6 h7) (word16 c.wireOrder h8 h9)
      (word16 c.wireOrder h10 h11))
  | _ => none

/-- `hdr_encode` (R82): the masked `opdev`, the other words in header order, `crc16` zero. -/
def hdrEncode (o : WireOrder) (type op dev reg pos len seq : Word) : List Byte :=
  headerOctets o (packOpdev type op dev) seq reg pos len 0#16

/-! ## Frames on the byte stream (R60, R61, R66) -/

/-- The octets of a frame whose `opdev[15:12]` is `kind` (R60, R61): header, then payload. -/
def frameOctets (o : WireOrder) (kind : BitVec 4) (device : BitVec 12) (b : FrameBody) : List Byte :=
  headerOctets o (kind ++ device) b.seq b.reg b.pos b.len b.crc16 ++ b.payload

/-- The row of R66 that `opdev[15:12]` selects. -/
def frameOfOpdev (opdev : Word) (body : FrameBody) : Instr :=
  let device := opdevDevice opdev
  match opdev.getLsbD 15, opdev.getLsbD 14, opdev.getLsbD 13, opdev.getLsbD 12 with
  | false, false, false, false => .t0Sync device body
  | false, false, false, true => .t0Read device body
  | false, false, true, false => .t0Write device body
  | false, false, true, true => .t0Change device body
  | false, true, false, false => .reqSync device body
  | false, true, false, true => .reqRead device body
  | false, true, true, false => .reqWrite device body
  | false, true, true, true => .reqChange device body
  | true, false, false, false => .ackSync device body
  | true, false, false, true => .ackRead device body
  | true, false, true, false => .ackWrite device body
  | true, false, true, true => .ackChange device body
  | true, true, false, false => .errSync device body
  | true, true, false, true => .errRead device body
  | true, true, true, false => .errWrite device body
  | true, true, true, true => .errChange device body

/-- Why an input is no instruction. -/
inductive DecodeError where
  /-- The command code is 0000 or 0111 to 1111 (R72): the step raises F_ILLEGAL_CMD. -/
  | reservedCode (code : BitVec 4)
  /-- Fewer than twelve octets: no whole header (R60). -/
  | shortHeader (count : Nat)
  /-- The octets after the header are not exactly the `len` the header declares (R60). -/
  | payloadLength (declared count : Nat)
  deriving DecidableEq, Repr

/-- One frame, and nothing beside it, in the byte order of the block (R60). -/
def decodeFrame (c : Config) : List Byte → Except DecodeError Instr
  | h0 :: h1 :: h2 :: h3 :: h4 :: h5 :: h6 :: h7 :: h8 :: h9 :: h10 :: h11 :: payload =>
    let o := c.wireOrder
    let len := word16 o h8 h9
    if payload.length = len.toNat then
      .ok (frameOfOpdev (word16 o h0 h1)
        { seq := word16 o h2 h3, reg := word16 o h4 h5, pos := word16 o h6 h7, len := len,
          crc16 := word16 o h10 h11, payload := payload })
    else .error (.payloadLength len.toNat payload.length)
  | bytes => .error (.shortHeader bytes.length)

/-! ## Commands (R70 to R72) -/

/-- The command of the code on the port, with its operands; the reserved codes by name (R70, R72). -/
def decodeCommand (p : CommandPort) : Except DecodeError Instr :=
  match p.code.toNat with
  | 0b0001 => .ok .init
  | 0b0010 => .ok (.fill p.r p.bytes)
  | 0b0011 => .ok .release
  | 0b0100 => .ok (.decode p.bytes)
  | 0b0101 => .ok (.encode p.type p.op p.dev p.reg p.pos p.len p.seq)
  | 0b0110 => .ok .seqNext
  | _ => .error (.reservedCode p.code)

/-- The decoder of both kinds of input. -/
def decodeInput (c : Config) : Input → Except DecodeError Instr
  | .command p => decodeCommand p
  | .stream bytes => decodeFrame c bytes

/-- The 4-bit code under which an instruction reaches the block (R70): a frame's octets arrive by FILL. -/
def Instr.code : Instr → BitVec 4
  | .init => 0b0001#4
  | .fill _ _ => 0b0010#4
  | .release => 0b0011#4
  | .decode _ => 0b0100#4
  | .encode _ _ _ _ _ _ _ => 0b0101#4
  | .seqNext => 0b0110#4
  | .t0Sync _ _ => 0b0010#4
  | .t0Read _ _ => 0b0010#4
  | .t0Write _ _ => 0b0010#4
  | .t0Change _ _ => 0b0010#4
  | .reqSync _ _ => 0b0010#4
  | .reqRead _ _ => 0b0010#4
  | .reqWrite _ _ => 0b0010#4
  | .reqChange _ _ => 0b0010#4
  | .ackSync _ _ => 0b0010#4
  | .ackRead _ _ => 0b0010#4
  | .ackWrite _ _ => 0b0010#4
  | .ackChange _ _ => 0b0010#4
  | .errSync _ _ => 0b0010#4
  | .errRead _ _ => 0b0010#4
  | .errWrite _ _ => 0b0010#4
  | .errChange _ _ => 0b0010#4

/-- The encoder: a command on its port lines (lines it does not read are zero), a frame as its octets. -/
def encode (c : Config) : Instr → Input
  | .init => .command { code := 0b0001#4 }
  | .fill r data => .command { code := 0b0010#4, r := r, bytes := data }
  | .release => .command { code := 0b0011#4 }
  | .decode h => .command { code := 0b0100#4, bytes := h }
  | .encode type op dev reg pos len seq =>
    .command { code := 0b0101#4, type := type, op := op, dev := dev, reg := reg, pos := pos, len := len, seq := seq }
  | .seqNext => .command { code := 0b0110#4 }
  | .t0Sync d b => .stream (frameOctets c.wireOrder 0b0000#4 d b)
  | .t0Read d b => .stream (frameOctets c.wireOrder 0b0001#4 d b)
  | .t0Write d b => .stream (frameOctets c.wireOrder 0b0010#4 d b)
  | .t0Change d b => .stream (frameOctets c.wireOrder 0b0011#4 d b)
  | .reqSync d b => .stream (frameOctets c.wireOrder 0b0100#4 d b)
  | .reqRead d b => .stream (frameOctets c.wireOrder 0b0101#4 d b)
  | .reqWrite d b => .stream (frameOctets c.wireOrder 0b0110#4 d b)
  | .reqChange d b => .stream (frameOctets c.wireOrder 0b0111#4 d b)
  | .ackSync d b => .stream (frameOctets c.wireOrder 0b1000#4 d b)
  | .ackRead d b => .stream (frameOctets c.wireOrder 0b1001#4 d b)
  | .ackWrite d b => .stream (frameOctets c.wireOrder 0b1010#4 d b)
  | .ackChange d b => .stream (frameOctets c.wireOrder 0b1011#4 d b)
  | .errSync d b => .stream (frameOctets c.wireOrder 0b1100#4 d b)
  | .errRead d b => .stream (frameOctets c.wireOrder 0b1101#4 d b)
  | .errWrite d b => .stream (frameOctets c.wireOrder 0b1110#4 d b)
  | .errChange d b => .stream (frameOctets c.wireOrder 0b1111#4 d b)

/-! ## Words of the opcode table -/

/-- The input whose bits are `w`, as the opcode table numbers them (bit 0 the least significant bit of
the first word): a row of one byte is a command code (`cmd[3:0]`), a wider row is a frame header whose
first word is `opdev`. Bits above `nbits` are zero: operand lines are zero (DECODE's twelve header bytes
are twelve zero bytes), the other header words and the payload octets are zero. Assumption log 13. -/
def tableInput (o : WireOrder) (nbits w : Nat) : Input :=
  let v := w % 2 ^ nbits
  if nbits ≤ 8 then
    .command { code := BitVec.ofNat 4 v, bytes := if v % 16 = 0b0100 then List.replicate hdrLen 0#8 else [] }
  else
    let word := fun k => BitVec.ofNat 16 (v / 2 ^ (16 * k))
    .stream (headerOctets o (word 0) (word 1) (word 2) (word 3) (word 4) (word 5)
      ++ List.replicate (word 4).toNat 0#8)

/-- The instruction the decoder reads from a table word (in the reference byte order; the words and
their order are laid out and read the same way in both). -/
def decodeTableWord (nbits w : Nat) : Option Instr :=
  match decodeInput Config.reference (tableInput Config.reference.wireOrder nbits w) with
  | .ok i => some i
  | .error _ => none

end Sys2Proof
end

