-- ==== Sys2Proof/Machine/State.lean ====
section
/-! DEFINITION. The state of the block as plain data (spec/10_state.md R20), what its trace records (spec/60_exceptions.md R120, R122), its reset value (spec/70_reset_and_hazards.md R141), and the reasons a step of the model can stop. -/

namespace Sys2Proof.Machine

/-- `phase` (R22). -/
inductive Phase where
  /-- No INIT has been performed. -/
  | uninit
  /-- Waiting for bytes; no complete frame is buffered. -/
  | idle
  /-- A complete frame stands at buffer address 0 and is offered to the Dispatcher. -/
  | present
  deriving DecidableEq, Repr

/-- The port encoding of `phase`; code 3 is unused (R22). -/
def Phase.code : Phase → BitVec 2
  | .uninit => 0#2
  | .idle => 1#2
  | .present => 2#2

/-- The events of R120 with their arguments. -/
inductive Event where
  | init
  | noData (r : Int)
  | needHeader (rcv : Nat)
  | needPayload (rcv total : Nat)
  | frame (hdr : Header) (payload : List Byte)
  | oversize (len : Word) (n : Nat)
  | decoded (hdr : Header)
  | encoded (bytes : List Byte)
  | seq (value : Word)
  deriving DecidableEq, Repr

/-- The event codes of R120. -/
def Event.code : Event → Byte
  | .init => 0x00#8
  | .noData _ => 0x01#8
  | .needHeader _ => 0x02#8
  | .needPayload _ _ => 0x03#8
  | .frame _ _ => 0x04#8
  | .oversize _ _ => 0x05#8
  | .decoded _ => 0x06#8
  | .encoded _ => 0x07#8
  | .seq _ => 0x08#8

/-- The fault codes of R122, what the register `fault` holds. -/
inductive FaultCode where
  | uninit
  | illegalCmd
  | fillOverrun
  | fillLength
  | releaseIdle
  | shortHeader
  | encodeOversize
  deriving DecidableEq, Repr

/-- The numeric fault codes of R122. -/
def FaultCode.code : FaultCode → Byte
  | .uninit => 0x81#8
  | .illegalCmd => 0x82#8
  | .fillOverrun => 0x83#8
  | .fillLength => 0x84#8
  | .releaseIdle => 0x85#8
  | .shortHeader => 0x86#8
  | .encodeOversize => 0x87#8

/-- A raised fault with its arguments (R122), what the trace holds. -/
inductive FaultRecord where
  | uninit (cmd : BitVec 4)
  | illegalCmd (cmd : BitVec 4)
  | fillOverrun (r : Int) (space : Nat)
  | fillLength (r : Int) (count : Nat)
  | releaseIdle
  | shortHeader (count : Nat)
  | encodeOversize (len : Word)
  deriving DecidableEq, Repr

/-- The code of a raised fault (R122). -/
def FaultRecord.code : FaultRecord → FaultCode
  | .uninit _ => .uninit
  | .illegalCmd _ => .illegalCmd
  | .fillOverrun _ _ => .fillOverrun
  | .fillLength _ _ => .fillLength
  | .releaseIdle => .releaseIdle
  | .shortHeader _ => .shortHeader
  | .encodeOversize _ => .encodeOversize

/-- One entry of the output trace: an event or a fault (R20). -/
inductive TraceEntry where
  | event (e : Event)
  | fault (f : FaultRecord)
  deriving DecidableEq, Repr

/-- The reassembly buffer's cells that hold a byte, by rising address; a cell that is not listed has
no value (R27, R40). -/
abbrev Memory := List Host.Cell

/-- The state of the block (R20), its build-time configuration (R6) and what the environment offers it (R13). -/
structure State where
  /-- The configuration of R6; no command writes it (assumption log 4). -/
  cfg : Config
  /-- R22. -/
  phase : Phase
  /-- The count of valid buffered bytes (R23). -/
  rcv : Nat
  /-- The reassembly buffer (R27). -/
  buf : Memory
  /-- The last sequence number observed from the host (R25). -/
  seqIn : Word
  /-- The last sequence number the device assigned (R26). -/
  seqOut : Word
  /-- The sticky fault register (R28). -/
  fault : Option FaultCode
  /-- The output trace, oldest entry first (R20, R120). -/
  trace : List TraceEntry
  /-- MODEL'S OWN FIELD: what the environment offers, in the order it offers it (assumption log 5). -/
  inputs : List Input
  deriving DecidableEq, Repr

/-- Why the model stops. Every constructor is a SAFE stop: the block does nothing the model leaves out there. -/
inductive Fault where
  /-- Raised by every instruction offered while `fault` holds a code: no command has a step then, INIT
  included (R123, U19). Safe: runs are removed, none added. -/
  | quiescent (code : FaultCode)
  /-- Raised by a read of a buffer cell at an address ≥ `rcv` or of a cell without a value (R27, R40, U3).
  Safe; no state of the invariant reaches it. -/
  | noValue (addr : Nat)
  /-- Raised by a write that would leave the buffer (R40 defines none). Safe; no state of the invariant reaches it. -/
  | outsideBuffer (addr : Nat)
  /-- Raised by RELEASE in PRESENT where fewer bytes are held than the frame declares (R30 excludes it). Safe. -/
  | frameNotHeld (rcv total : Nat)
  deriving DecidableEq, Repr

/-- Why an instruction has no meaning in the model. -/
inductive Refusal where
  /-- Raised by an arm of exec whose instruction has no meaning yet; no arm of this model does. Safe. -/
  | notModelled (mnemonic : String)
  deriving DecidableEq, Repr

/-- The outcome of one step (R12). -/
abbrev Out := Host.Outcome State Fault Refusal

/-! ## Updates, one per field -/

/-- Writes `phase`. -/
def State.setPhase (s : State) (v : Phase) : State := { s with phase := v }

/-- Writes `rcv`. -/
def State.setRcv (s : State) (v : Nat) : State := { s with rcv := v }

/-- Writes the buffer's cells. -/
def State.setBuf (s : State) (v : Memory) : State := { s with buf := v }

/-- Writes `seq_in`. -/
def State.setSeqIn (s : State) (v : Word) : State := { s with seqIn := v }

/-- Writes `seq_out`. -/
def State.setSeqOut (s : State) (v : Word) : State := { s with seqOut := v }

/-- Writes the fault register. -/
def State.setFault (s : State) (v : FaultCode) : State := { s with fault := some v }

/-- Appends one entry to the trace. -/
def State.log (s : State) (e : TraceEntry) : State := { s with trace := s.trace ++ [e] }

/-- Replaces what the environment offers. -/
def State.setInputs (s : State) (v : List Input) : State := { s with inputs := v }

/-- The block at power-up, built with the configuration `c` (R141): UNINIT, no fault, empty trace, no cell
with a value. `rcv`, `seq_in` and `seq_out` have no value in the spec and 0 here: DESIGN CHOICE, UNSAFE,
assumption log 2. -/
def State.powerUp (c : Config) : State :=
  { cfg := c, phase := .uninit, rcv := 0, buf := [], seqIn := 0#16, seqOut := 0#16, fault := none,
    trace := [], inputs := [] }

/-- The machine right after reset: power-up, in the reference configuration (R141; assumption log 1, 4). -/
def State.reset : State := State.powerUp Config.reference

end Sys2Proof.Machine
end

