-- ==== Sys2Proof/Machine/Ops.lean ====
section
/-! DEFINITION. The named operations every meaning is built from: the buffer (spec/20_memory.md R40), the outcomes of a step (spec/00_scope.md R12), the common checks (spec/60_exceptions.md R127), the append of FILL, SCAN, the leftover shift of RELEASE (spec/42_reassembler.md). -/

namespace Sys2Proof.Machine

/-! ## Buffer cells (R27, R40) -/

/-- The byte a cell holds, or no value (R27). -/
def Memory.read : Memory → Nat → Option Byte
  | [], _ => none
  | (k, v) :: rest, a => if k = a then some v else Memory.read rest a

/-- Writes one byte and keeps the addresses strictly rising. -/
def Memory.write : Memory → Nat → Byte → Memory
  | [], a, b => [(a, b)]
  | (k, v) :: rest, a, b =>
    if a < k then (a, b) :: (k, v) :: rest
    else if a = k then (a, b) :: rest
    else (k, v) :: Memory.write rest a b

/-- Writes bytes at rising addresses from `a`. -/
def Memory.writeBytes : Memory → Nat → List Byte → Memory
  | m, _, [] => m
  | m, a, b :: bs => Memory.writeBytes (Memory.write m a b) (a + 1) bs

/-- The canonical form: addresses strictly rising. (An unlisted cell has no value, so no entry can equal it.) -/
abbrev Memory.wf (m : Memory) : Prop := m.Pairwise (fun x y => x.1 < y.1)

/-- The number of bytes the block asks the Transport for, `MAX_FRAME - rcv` (R32, R101). -/
def State.space (s : State) : Nat := s.cfg.maxFrame - s.rcv

/-- A byte of the buffer as the block reads it: only addresses below `rcv` are valid (R23, R27). -/
def State.readByte (s : State) (a : Nat) : Option Byte := if a < s.rcv then s.buf.read a else none

/-- `MemRead(a, n)` (R40): the `n` bytes from `a`; the first cell without a valid byte faults. -/
def State.readBytes (s : State) : Nat → Nat → Except Fault (List Byte)
  | _, 0 => .ok []
  | a, n + 1 =>
    match s.readByte a with
    | none => .error (.noValue a)
    | some b =>
      match State.readBytes s (a + 1) n with
      | .error f => .error f
      | .ok bs => .ok (b :: bs)

/-- `WORD16(buf[a], buf[a+1])` (R10, R47). -/
def State.readWord (s : State) (a : Nat) : Except Fault Word :=
  match s.readByte a, s.readByte (a + 1) with
  | some x, some y => .ok (word16 s.cfg.wireOrder x y)
  | none, _ => .error (.noValue a)
  | some _, none => .error (.noValue (a + 1))

/-- `MemWrite(a, n, s)` (R40): defined only inside the buffer. -/
def State.writeBytes (s : State) (a : Nat) (bytes : List Byte) : Except Fault State :=
  if a + bytes.length ≤ s.cfg.maxFrame then .ok (s.setBuf (s.buf.writeBytes a bytes))
  else .error (.outsideBuffer (a + bytes.length - 1))

/-- Goes on with a value, or stops with the fault of the access. -/
def orStop {α : Type} (x : Except Fault α) (k : α → Out) : Out :=
  match x with
  | .error f => .fault f
  | .ok v => k v

/-! ## Outcomes (R12) and common checks (R127) -/

/-- `emit Ev(args)` (R12): the step completes and its event goes onto the trace (R120). -/
def emit (e : Event) (s : State) : Out := .next (s.log (.event e))

/-- `raise Fault(code)` (R12, R122): `fault` and `trace` are written and nothing else (R123, R129). -/
def raise (f : FaultRecord) (s : State) : Out := .next ((s.setFault f.code).log (.fault f))

/-- `hold` (R12): the block's state is unchanged. That the command stays offered is the fetch's part (assumption log 8). -/
def hold (s : State) : Out := .next s

/-- Check 1 of R127: once a fault is recorded, no command has a step (R123). -/
def unlessFaulted (s : State) (k : State → Out) : Out :=
  match s.fault with
  | some c => .fault (.quiescent c)
  | none => k s

/-- Checks 1 and 3 of R127, for a command other than INIT: F_UNINIT in UNINIT (R141). -/
def whenInitialised (cmd : BitVec 4) (s : State) (k : State → Out) : Out :=
  unlessFaulted s fun s => if s.phase = .uninit then raise (.uninit cmd) s else k s

/-- Checks 1 and 2 of R127: a reserved command code (R72). -/
def illegalCommand (cmd : BitVec 4) (s : State) : Out := unlessFaulted s (raise (.illegalCmd cmd))

/-! ## SCAN (R105 to R109) -/

/-- The frame at buffer address 0 as the block reads it (R34, R109): its header and `len` payload octets. -/
def State.frontFrame (s : State) : Except Fault (Header × List Byte) :=
  match s.readBytes 0 hdrLen with
  | .error f => .error f
  | .ok h =>
    match hdrDecode s.cfg h with
    | none => .error (.noValue s.rcv)
    | some hdr =>
      match s.readBytes hdrLen hdr.len.toNat with
      | .error f => .error f
      | .ok payload => .ok (hdr, payload)

/-- SCAN (R105): header incomplete (R106), oversized header discarded (R107), payload incomplete (R108),
or the frame is presented and its `seq` captured (R109, R91). Its outcomes are tested in this order (R128).
A discard keeps the cells' bytes, which no rule reads (assumption log 10). -/
def scan (s : State) : Out :=
  if s.rcv < hdrLen then emit (.needHeader s.rcv) s
  else orStop (s.readWord 8) fun len0 =>
    if s.cfg.maxPayload.val < len0.toNat then emit (.oversize len0 s.rcv) (s.setRcv 0)
    else if s.rcv < hdrLen + len0.toNat then emit (.needPayload s.rcv (hdrLen + len0.toNat)) s
    else orStop s.frontFrame fun frame =>
      emit (.frame frame.1 frame.2) ((s.setSeqIn frame.1.seq).setPhase .present)

/-! ## FILL (R102 to R104) and RELEASE (R111, R112) -/

/-- Appends delivered bytes after the held ones and scans (R104). -/
def append (data : List Byte) (s : State) : Out :=
  orStop (s.writeBytes s.rcv data) fun t => scan (t.setRcv (s.rcv + data.length))

/-- FILL's own checks and effect, where it is not held (R102): the operand count, no data (R103), the
overrun, the append. -/
def fillIdle (r : Int) (data : List Byte) (s : State) : Out :=
  if (data.length : Int) ≠ max r 0 then raise (.fillLength r data.length) s
  else if r ≤ 0 then emit (.noData r) s
  else if (s.space : Int) < r then raise (.fillOverrun r s.space) s
  else append data s

/-- A FILL holds while a frame is presented (R127 check 4, R145). -/
def unlessPresent (s : State) (k : State → Out) : Out := if s.phase = .present then hold s else k s

/-- What the Transport does not deliver yet stays offered, before everything else (assumption log 7). -/
def State.putBack (s : State) (rest : List Byte) : State :=
  if rest = [] then s else s.setInputs (.stream rest :: s.inputs)

/-- The Transport answers `read(space)` from the octets it holds (R101, R113, R150): a FILL of as many
of them as the block asks for; the rest stays with the Transport (assumption log 7). Before INIT nothing is put
back (assumption log 17). -/
def receive (octets : List Byte) (s : State) : Out :=
  whenInitialised 0b0010#4 s fun s => unlessPresent s fun s =>
    fillIdle ((octets.take s.space).length : Nat) (octets.take s.space) (s.putBack (octets.drop s.space))

/-- The leftover shift (R111, R112): all `rcv - total` bytes are read before any is written; then
`rcv` is the leftover count, the phase IDLE, and SCAN runs. -/
def releaseFrame (s : State) : Out :=
  orStop (s.readWord 8) fun len0 =>
    let total := hdrLen + len0.toNat
    if s.rcv < total then .fault (.frameNotHeld s.rcv total)
    else orStop (s.readBytes total (s.rcv - total)) fun left =>
      orStop (s.writeBytes 0 left) fun t => scan ((t.setRcv (s.rcv - total)).setPhase .idle)

end Sys2Proof.Machine
end

