-- ==== Sys2Proof/Machine/Operands.lean ====
section
/-! DEFINITION. The operand forms: DECODE's byte sequence and ENCODE's seven words (spec/30_encoding.md R71), and the octets of a frame row. -/

namespace Sys2Proof.Machine

/-- DECODE's operand (R81, D19): the header in its first twelve bytes, or F_SHORT_HEADER. -/
def withHeader (h : List Byte) (s : State) (k : Header → Out) : Out :=
  match hdrDecode s.cfg h with
  | none => raise (.shortHeader h.length) s
  | some hdr => k hdr

/-- ENCODE's operands (R83, D11): F_ENCODE_OVERSIZE, or the twelve bytes of R82 in the block's byte order. -/
def withEncoded (type op dev reg pos len seq : Word) (s : State) (k : List Byte → Out) : Out :=
  if s.cfg.maxPayload.val < len.toNat then raise (.encodeOversize len) s
  else k (hdrEncode s.cfg.wireOrder type op dev reg pos len seq)

/-- A frame row's operands (R60, R66): the octets of the frame in the block's byte order arrive on the byte stream. -/
def receiveFrame (kind : BitVec 4) (device : BitVec 12) (body : FrameBody) (s : State) : Out :=
  receive (frameOctets s.cfg.wireOrder kind device body) s

end Sys2Proof.Machine
end

