-- ==== Sys2Proof/Machine/Codec.lean ====
section
/-! DEFINITION. The codec's commands DECODE and ENCODE (spec/40_codec.md). -/

namespace Sys2Proof.Machine

/-- DECODE `h` (R81): EV_DECODED with the header of the operand's first twelve bytes; nothing else is written. -/
def execDecode (h : List Byte) (s : State) : Out :=
  whenInitialised 0b0100#4 s fun s => withHeader h s fun hdr => emit (.decoded hdr) s

/-- ENCODE (R83): EV_ENCODED with the twelve header bytes; nothing else is written. -/
def execEncode (type op dev reg pos len seq : Word) (s : State) : Out :=
  whenInitialised 0b0101#4 s fun s =>
    withEncoded type op dev reg pos len seq s fun bytes => emit (.encoded bytes) s

end Sys2Proof.Machine
end

