-- ==== Sys2Proof/Machine/Frames.lean ====
section
/-! DEFINITION. The sixteen frame rows of spec/30_encoding.md R66. The block classifies nothing by type or operation: each frame's octets are received as spec/42_reassembler.md R101 to R109 say, and the frame is presented whatever its type and operation (R109). Assumption log 7. -/

namespace Sys2Proof.Machine

/-- T0.SYNC (R66, `opdev[15:12] = 0000`): the frame arrives on the byte stream. -/
def execT0Sync (device : BitVec 12) (body : FrameBody) (s : State) : Out :=
  receiveFrame 0b0000#4 device body s

/-- T0.READ (R66, `opdev[15:12] = 0001`): the frame arrives on the byte stream. -/
def execT0Read (device : BitVec 12) (body : FrameBody) (s : State) : Out :=
  receiveFrame 0b0001#4 device body s

/-- T0.WRITE (R66, `opdev[15:12] = 0010`): the frame arrives on the byte stream. -/
def execT0Write (device : BitVec 12) (body : FrameBody) (s : State) : Out :=
  receiveFrame 0b0010#4 device body s

/-- T0.CHANGE (R66, `opdev[15:12] = 0011`): the frame arrives on the byte stream. -/
def execT0Change (device : BitVec 12) (body : FrameBody) (s : State) : Out :=
  receiveFrame 0b0011#4 device body s

/-- REQ.SYNC (R66, `opdev[15:12] = 0100`): the frame arrives on the byte stream. -/
def execReqSync (device : BitVec 12) (body : FrameBody) (s : State) : Out :=
  receiveFrame 0b0100#4 device body s

/-- REQ.READ (R66, `opdev[15:12] = 0101`): the frame arrives on the byte stream. -/
def execReqRead (device : BitVec 12) (body : FrameBody) (s : State) : Out :=
  receiveFrame 0b0101#4 device body s

/-- REQ.WRITE (R66, `opdev[15:12] = 0110`): the frame arrives on the byte stream. -/
def execReqWrite (device : BitVec 12) (body : FrameBody) (s : State) : Out :=
  receiveFrame 0b0110#4 device body s

/-- REQ.CHANGE (R66, `opdev[15:12] = 0111`): the frame arrives on the byte stream. -/
def execReqChange (device : BitVec 12) (body : FrameBody) (s : State) : Out :=
  receiveFrame 0b0111#4 device body s

/-- ACK.SYNC (R66, `opdev[15:12] = 1000`): the frame arrives on the byte stream. -/
def execAckSync (device : BitVec 12) (body : FrameBody) (s : State) : Out :=
  receiveFrame 0b1000#4 device body s

/-- ACK.READ (R66, `opdev[15:12] = 1001`): the frame arrives on the byte stream. -/
def execAckRead (device : BitVec 12) (body : FrameBody) (s : State) : Out :=
  receiveFrame 0b1001#4 device body s

/-- ACK.WRITE (R66, `opdev[15:12] = 1010`): the frame arrives on the byte stream. -/
def execAckWrite (device : BitVec 12) (body : FrameBody) (s : State) : Out :=
  receiveFrame 0b1010#4 device body s

/-- ACK.CHANGE (R66, `opdev[15:12] = 1011`): the frame arrives on the byte stream. -/
def execAckChange (device : BitVec 12) (body : FrameBody) (s : State) : Out :=
  receiveFrame 0b1011#4 device body s

/-- ERR.SYNC (R66, `opdev[15:12] = 1100`): the frame arrives on the byte stream. -/
def execErrSync (device : BitVec 12) (body : FrameBody) (s : State) : Out :=
  receiveFrame 0b1100#4 device body s

/-- ERR.READ (R66, `opdev[15:12] = 1101`): the frame arrives on the byte stream. -/
def execErrRead (device : BitVec 12) (body : FrameBody) (s : State) : Out :=
  receiveFrame 0b1101#4 device body s

/-- ERR.WRITE (R66, `opdev[15:12] = 1110`): the frame arrives on the byte stream. -/
def execErrWrite (device : BitVec 12) (body : FrameBody) (s : State) : Out :=
  receiveFrame 0b1110#4 device body s

/-- ERR.CHANGE (R66, `opdev[15:12] = 1111`): the frame arrives on the byte stream. -/
def execErrChange (device : BitVec 12) (body : FrameBody) (s : State) : Out :=
  receiveFrame 0b1111#4 device body s

end Sys2Proof.Machine
end

