-- ==== Sys2Proof/Machine/Lifecycle.lean ====
section
/-! DEFINITION. INIT (spec/70_reset_and_hazards.md R140, R142). -/

namespace Sys2Proof.Machine

/-- INIT (R140): every register but `fault` takes its value of R36; allowed in every unfaulted phase (R142). -/
def execInit (s : State) : Out :=
  unlessFaulted s fun s =>
    emit .init (((((s.setPhase .idle).setRcv 0).setBuf []).setSeqIn 0#16).setSeqOut 0#16)

end Sys2Proof.Machine
end

