-- ==== Sys2Proof/Machine/Reassembler.lean ====
section
/-! DEFINITION. The stream reassembler's commands FILL and RELEASE (spec/42_reassembler.md). -/

namespace Sys2Proof.Machine

/-- FILL `r, data` (R102): held in PRESENT, else the operand checks, no data, or append and SCAN. -/
def execFill (r : Int) (data : List Byte) (s : State) : Out :=
  whenInitialised 0b0010#4 s fun s => unlessPresent s (fillIdle r data)

/-- RELEASE (R111): F_RELEASE_IDLE unless a frame is presented; else the leftover shift and SCAN. -/
def execRelease (s : State) : Out :=
  whenInitialised 0b0011#4 s fun s => if s.phase = .present then releaseFrame s else raise .releaseIdle s

end Sys2Proof.Machine
end

