-- ==== Sys2Proof/Machine/Sequence.lean ====
section
/-! DEFINITION. The sequence-number manager's command SEQ_NEXT (spec/41_sequence.md). -/

namespace Sys2Proof.Machine

/-- SEQ_NEXT (R92): `seq_out` counts modulo 2^16 and its new value is emitted (R95). -/
def execSeqNext (s : State) : Out :=
  whenInitialised 0b0110#4 s fun s => emit (.seq (s.seqOut + 1#16)) (s.setSeqOut (s.seqOut + 1#16))

end Sys2Proof.Machine
end

