-- ==== Sys2Proof/Machine/Dispatch.lean ====
section
/-! DEFINITION. The meaning of every instruction, one arm per constructor of Instr. -/

namespace Sys2Proof.Machine

def exec (i : Instr) (s : State) : Host.Outcome State Fault Refusal :=
  match i with
  | .init => Sys2Proof.Machine.execInit s
  | .fill r data => Sys2Proof.Machine.execFill r data s
  | .release => Sys2Proof.Machine.execRelease s
  | .decode h => Sys2Proof.Machine.execDecode h s
  | .encode type op dev reg pos len seq => Sys2Proof.Machine.execEncode type op dev reg pos len seq s
  | .seqNext => Sys2Proof.Machine.execSeqNext s
  | .t0Sync device body => Sys2Proof.Machine.execT0Sync device body s
  | .t0Read device body => Sys2Proof.Machine.execT0Read device body s
  | .t0Write device body => Sys2Proof.Machine.execT0Write device body s
  | .t0Change device body => Sys2Proof.Machine.execT0Change device body s
  | .reqSync device body => Sys2Proof.Machine.execReqSync device body s
  | .reqRead device body => Sys2Proof.Machine.execReqRead device body s
  | .reqWrite device body => Sys2Proof.Machine.execReqWrite device body s
  | .reqChange device body => Sys2Proof.Machine.execReqChange device body s
  | .ackSync device body => Sys2Proof.Machine.execAckSync device body s
  | .ackRead device body => Sys2Proof.Machine.execAckRead device body s
  | .ackWrite device body => Sys2Proof.Machine.execAckWrite device body s
  | .ackChange device body => Sys2Proof.Machine.execAckChange device body s
  | .errSync device body => Sys2Proof.Machine.execErrSync device body s
  | .errRead device body => Sys2Proof.Machine.execErrRead device body s
  | .errWrite device body => Sys2Proof.Machine.execErrWrite device body s
  | .errChange device body => Sys2Proof.Machine.execErrChange device body s

end Sys2Proof.Machine
end

