-- ==== Sys2Proof/Machine/Fetch.lean ====
section
/-! DEFINITION. Which offered input takes its step (spec/00_scope.md R12, R13; spec/70_reset_and_hazards.md R145, R146). The block has no program counter (spec/10_state.md R21): the environment offers commands, in its order, and a held FILL stays offered while those behind it may go. Assumption log 5. -/

namespace Sys2Proof.Machine

/-- The input is a FILL: the command 0010, or octets the Transport delivers. -/
def isFill : Input → Bool
  | .command p => p.code == 0b0010#4
  | .stream _ => true

/-- The one hold of the block (R145): a FILL while a frame is presented, after check 1 of R127. -/
def isHeld (s : State) (x : Input) : Bool := s.fault.isNone && s.phase == .present && isFill x

/-- The first offered input that is not held, and what stays offered. -/
def firstReady (s : State) : List Input → Option (Input × List Input)
  | [] => none
  | x :: rest =>
    if isHeld s x then
      match firstReady s rest with
      | none => none
      | some (y, left) => some (y, x :: left)
    else some (x, rest)

/-- What a step does next. -/
inductive Fetched where
  /-- No input is offered that has a step. -/
  | nothing
  /-- The instruction to run, in the state it runs in. -/
  | instr (i : Instr) (s : State)
  /-- A reserved command code (R72). -/
  | reserved (code : BitVec 4) (s : State)
  deriving DecidableEq, Repr

/-- The instruction an input stands for. Octets that are not exactly one frame are delivered by a FILL
of as many of them as the block asks for (R101, R113); the rest stays offered. Before INIT `space` has no value
(R141), and the delivery that raises F_UNINIT takes all of them, as it does a whole frame's: DESIGN CHOICE,
assumption log 17. -/
def takeInput (x : Input) (s : State) : Fetched :=
  match x, decodeInput s.cfg x with
  | _, .ok i => .instr i s
  | .command p, .error _ => .reserved p.code s
  | .stream octets, .error _ =>
    if s.phase = .uninit then .instr (.fill (octets.length : Nat) octets) s
    else .instr (.fill ((octets.take s.space).length : Nat) (octets.take s.space)) (s.putBack (octets.drop s.space))

/-- The next input that has a step, taken from what is offered. -/
def fetch (s : State) : Fetched :=
  match firstReady s s.inputs with
  | none => .nothing
  | some (x, left) => takeInput x (s.setInputs left)

/-- `s` with the input of a table word offered before everything else (assumption log 13). -/
def offerTableWord (s : State) (nbits w : Nat) : State :=
  s.setInputs (tableInput s.cfg.wireOrder nbits w :: s.inputs)

end Sys2Proof.Machine
end

