-- ==== Sys2Proof/Machine/Step.lean ====
section
/-! DEFINITION. One step: the next offered input that has a step takes it (spec/00_scope.md R12, R13); where none has one, the block's state is unchanged. -/

namespace Sys2Proof.Machine

/-- One step of the block under what the environment offers. -/
def step (s : State) : Host.Outcome State Fault Refusal :=
  match fetch s with
  | .nothing => .next s
  | .instr i t => exec i t
  | .reserved code t => illegalCommand code t

/-- `s` with the instruction of a table word offered first, so that the next step runs it. -/
def State.withFetchWord (s : State) (nbits w : Nat) : State := offerTableWord s nbits w

end Sys2Proof.Machine
end

