-- ==== Sys2Proof/Machine/Flags.lean ====
section
/-! DEFINITION. The output ports, derived from the state and never stored (spec/10_state.md R31 to R34). The block has no flags register; the flags of a decode result are typeOkFlag and lenOkFlag of Decode. -/

namespace Sys2Proof.Machine

/-- The values of the `status` port (R31). -/
inductive Status where
  | uninit
  | needHeader
  | needPayload
  | present
  | fault
  deriving DecidableEq, Repr

/-- The codes of the `status` port (R31). -/
def Status.code : Status → BitVec 3
  | .uninit => 0#3
  | .needHeader => 1#3
  | .needPayload => 2#3
  | .present => 3#3
  | .fault => 4#3

/-- The `status` port (R31). -/
def statusPort (s : State) : Status :=
  if s.fault.isSome then .fault
  else match s.phase with
    | .uninit => .uninit
    | .idle => if s.rcv < hdrLen then .needHeader else .needPayload
    | .present => .present

/-- The `space` port (R32); before INIT `rcv` has no value and the port shows none (R141, assumption log 15). -/
def spacePort (s : State) : Option Nat := if s.phase = .uninit then none else some s.space

/-- The `seq_in` port, shown after INIT (R33). -/
def seqInPort (s : State) : Option Word := if s.phase = .uninit then none else some s.seqIn

/-- The `seq_out` port, shown after INIT (R33). -/
def seqOutPort (s : State) : Option Word := if s.phase = .uninit then none else some s.seqOut

/-- The frame port (R34): the presented frame, and no value outside PRESENT. -/
def framePort (s : State) : Option (Header × List Byte) :=
  if s.phase = .present then s.frontFrame.toOption else none

end Sys2Proof.Machine
end

