-- ==== Sys2Proof/Safety.lean ====
section
/-! DEFINITION. What counts as the end of a run and a correct one, the abstract view of the buffer, the invariant the rules keep, and what each instruction emits and raises, in the terms the statements use (spec/10_state.md R29, R30; spec/70_reset_and_hazards.md R153). -/

namespace Sys2Proof.Machine

/-- The end of a run: the environment offers nothing any more (R153; log 5). -/
def State.Ended (s : State) : Prop := s.inputs = []

/-- The end state of a run is correct: no fault, and initialised (R153). -/
def State.Correct (s : State) : Prop := s.Ended ∧ s.fault = none ∧ s.phase ≠ .uninit

/-- A correct end, quiescent with a frame pending: the Dispatcher owes a RELEASE (R153). -/
def State.FramePending (s : State) : Prop := s.Correct ∧ s.phase = .present

/-- A correct end, idle with `held` bytes of an incomplete frame (R153). -/
def State.IdleEnd (s : State) (held : Nat) : Prop := s.Correct ∧ s.phase = .idle ∧ s.rcv = held

/-- Stuck, not finished (R146): offers are left and every one of them holds. -/
def State.Stuck (s : State) : Prop := s.inputs ≠ [] ∧ ∀ x ∈ s.inputs, isHeld s x = true

/-- The block holds exactly these valid bytes, in this order: `buf[0..rcv) = bytes` (R23). -/
def Holds (s : State) (bytes : List Byte) : Prop :=
  s.rcv = bytes.length ∧ ∀ i, i < bytes.length → s.buf.read i = bytes[i]?

/-- `WORD16(bytes[8], bytes[9])`: the length a header at the front of these bytes declares (R65); used
only where at least ten bytes stand there. -/
def frontLen (c : Config) (bytes : List Byte) : Word :=
  word16 c.wireOrder (bytes[8]?.getD 0#8) (bytes[9]?.getD 0#8)

/-- What SCAN leaves of a state `s` whose block holds `bytes` (R105 to R109, R128), said over the bytes
alone: the one event, the bytes still held, the phase and the captured `seq`; all else as before. -/
def Scanned (s t : State) (bytes : List Byte) : Prop :=
  t.cfg = s.cfg ∧ t.seqOut = s.seqOut ∧ t.fault = s.fault ∧ t.inputs = s.inputs ∧
  if bytes.length < hdrLen then
    t.phase = .idle ∧ Holds t bytes ∧ t.seqIn = s.seqIn ∧
      t.trace = s.trace ++ [.event (.needHeader bytes.length)]
  else if s.cfg.maxPayload.val < (frontLen s.cfg bytes).toNat then
    t.phase = .idle ∧ Holds t [] ∧ t.seqIn = s.seqIn ∧
      t.trace = s.trace ++ [.event (.oversize (frontLen s.cfg bytes) bytes.length)]
  else if bytes.length < hdrLen + (frontLen s.cfg bytes).toNat then
    t.phase = .idle ∧ Holds t bytes ∧ t.seqIn = s.seqIn ∧
      t.trace = s.trace ++ [.event (.needPayload bytes.length (hdrLen + (frontLen s.cfg bytes).toNat))]
  else
    t.phase = .present ∧ Holds t bytes ∧ ∃ hdr, hdrDecode s.cfg bytes = some hdr ∧ t.seqIn = hdr.seq ∧
      t.trace = s.trace ++
        [.event (.frame hdr ((bytes.drop hdrLen).take (frontLen s.cfg bytes).toNat))]

/-- The faults a trace records, oldest first (R122). -/
def faultsOf : List TraceEntry → List FaultRecord
  | [] => []
  | .fault f :: rest => f :: faultsOf rest
  | .event _ :: rest => faultsOf rest

/-- The values EV_SEQ events carry, oldest first (R92). -/
def seqValues : List TraceEntry → List Word
  | [] => []
  | .event (.seq v) :: rest => v :: seqValues rest
  | _ :: rest => seqValues rest

/-- The frames EV_FRAME events carry, oldest first (R110). -/
def framesOf : List TraceEntry → List (Header × List Byte)
  | [] => []
  | .event (.frame hdr payload) :: rest => (hdr, payload) :: framesOf rest
  | _ :: rest => framesOf rest

/-- The invariant of the block: canonical memory inside the buffer, `rcv` in range and every valid byte
with a value (R23, R27), R29 in IDLE, R30 in PRESENT with `seq_in` captured (R91), and the fault register
agreeing with the trace (R28, R123). -/
structure BlockInv (s : State) : Prop where
  canonical : s.buf.wf
  inside : ∀ c ∈ s.buf, c.1 < s.cfg.maxFrame
  bounded : s.rcv ≤ s.cfg.maxFrame
  valued : ∀ a, a < s.rcv → (s.buf.read a).isSome
  /-- R29. -/
  idle : s.phase = .idle → s.rcv < hdrLen ∨
    ∃ len0, s.readWord 8 = .ok len0 ∧ len0.toNat ≤ s.cfg.maxPayload.val ∧ s.rcv < hdrLen + len0.toNat
  /-- R30, R91, R110. -/
  present : s.phase = .present → ∃ hdr payload, framePort s = some (hdr, payload) ∧
    hdr.len.toNat ≤ s.cfg.maxPayload.val ∧ hdrLen + hdr.len.toNat ≤ s.rcv ∧
    s.seqIn = hdr.seq ∧ (framesOf s.trace).getLast? = some (hdr, payload)
  /-- At most one fault is ever recorded, and the register holds its code (R28, R123). -/
  faults : (faultsOf s.trace).map FaultRecord.code = s.fault.toList

/-- The sixteen frame rows of R66 with their `opdev[15:12]`, written out from that table. -/
def frameRows (device : BitVec 12) (body : FrameBody) : List (Instr × BitVec 4) :=
  [(.t0Sync device body, 0b0000#4),
   (.t0Read device body, 0b0001#4),
   (.t0Write device body, 0b0010#4),
   (.t0Change device body, 0b0011#4),
   (.reqSync device body, 0b0100#4),
   (.reqRead device body, 0b0101#4),
   (.reqWrite device body, 0b0110#4),
   (.reqChange device body, 0b0111#4),
   (.ackSync device body, 0b1000#4),
   (.ackRead device body, 0b1001#4),
   (.ackWrite device body, 0b1010#4),
   (.ackChange device body, 0b1011#4),
   (.errSync device body, 0b1100#4),
   (.errRead device body, 0b1101#4),
   (.errWrite device body, 0b1110#4),
   (.errChange device body, 0b1111#4)]

/-- The octets of one whole frame the block admits: a header, exactly `len` payload octets, and
`len ≤ MAX_PAYLOAD` (R60, R65). -/
def WholeFrame (c : Config) (octets : List Byte) : Prop :=
  octets.length = hdrLen + (frontLen c octets).toNat ∧ (frontLen c octets).toNat ≤ c.maxPayload.val

/-- The events SCAN can emit with `held` bytes in the buffer, where it leaves `t` (R120). -/
def Event.ofScan (held : Nat) (t : State) : Event → Prop
  | .needHeader rcv => rcv = held ∧ t.rcv = held ∧ held < hdrLen
  | .needPayload rcv total => rcv = held ∧ t.rcv = held ∧ held < total
  | .frame hdr payload => t.rcv = held ∧ payload.length = hdr.len.toNat
  | .oversize len n => n = held ∧ t.rcv = 0 ∧ t.cfg.maxPayload.val < len.toNat
  | _ => False

/-- The arguments of SCAN's events, read off the bytes it scanned (R106 to R109, R120). -/
def Event.tells (c : Config) (bytes : List Byte) : Event → Prop
  | .needHeader rcv => rcv = bytes.length
  | .needPayload rcv total => rcv = bytes.length ∧ total = hdrLen + (frontLen c bytes).toNat
  | .frame hdr payload => hdrDecode c bytes = some hdr ∧ payload = (bytes.drop hdrLen).take hdr.len.toNat
  | .oversize len n => n = bytes.length ∧ len = frontLen c bytes
  | _ => False

/-- SCAN's event where `held` bytes are scanned, which are `scanned bytes` if the block held `bytes` before. -/
def Event.ofScanOf (s t : State) (held : Nat) (scanned : List Byte → List Byte) (e : Event) : Prop :=
  Event.ofScan held t e ∧ ∀ bytes, Holds s bytes → Event.tells s.cfg (scanned bytes) e

/-- The event of a frame row with these octets (log 7): no data where the block asks for none, else SCAN's
after as many octets as it asked for. -/
def Event.ofRow (s t : State) (octets : List Byte) (e : Event) : Prop :=
  (octets.take s.space = [] ∧ e = .noData 0) ∨
  (octets.take s.space ≠ [] ∧
    Event.ofScanOf s t (s.rcv + (octets.take s.space).length) (fun bytes => bytes ++ octets.take s.space) e)

/-- The "emitted by" and "arguments" columns of R120, for an instruction that takes `s` to `t`. -/
def Emits (s t : State) : Instr → Event → Prop
  | .init, e => e = .init
  | .fill r data, e =>
    (r ≤ 0 ∧ e = .noData r) ∨
    (0 < r ∧ Event.ofScanOf s t (s.rcv + data.length) (fun bytes => bytes ++ data) e)
  | .release, e => ∃ len0 left, s.readWord 8 = .ok len0 ∧ hdrLen + len0.toNat + left = s.rcv ∧
    Event.ofScanOf s t left (fun bytes => bytes.drop (hdrLen + len0.toNat)) e
  | .decode h, e => ∃ hdr, hdrDecode s.cfg h = some hdr ∧ e = .decoded hdr
  | .encode type op dev reg pos len seq, e => e = .encoded (hdrEncode s.cfg.wireOrder type op dev reg pos len seq)
  | .seqNext, e => t.seqOut = s.seqOut + 1#16 ∧ e = .seq t.seqOut
  | .t0Sync d b, e => Event.ofRow s t (frameOctets s.cfg.wireOrder 0b0000#4 d b) e
  | .t0Read d b, e => Event.ofRow s t (frameOctets s.cfg.wireOrder 0b0001#4 d b) e
  | .t0Write d b, e => Event.ofRow s t (frameOctets s.cfg.wireOrder 0b0010#4 d b) e
  | .t0Change d b, e => Event.ofRow s t (frameOctets s.cfg.wireOrder 0b0011#4 d b) e
  | .reqSync d b, e => Event.ofRow s t (frameOctets s.cfg.wireOrder 0b0100#4 d b) e
  | .reqRead d b, e => Event.ofRow s t (frameOctets s.cfg.wireOrder 0b0101#4 d b) e
  | .reqWrite d b, e => Event.ofRow s t (frameOctets s.cfg.wireOrder 0b0110#4 d b) e
  | .reqChange d b, e => Event.ofRow s t (frameOctets s.cfg.wireOrder 0b0111#4 d b) e
  | .ackSync d b, e => Event.ofRow s t (frameOctets s.cfg.wireOrder 0b1000#4 d b) e
  | .ackRead d b, e => Event.ofRow s t (frameOctets s.cfg.wireOrder 0b1001#4 d b) e
  | .ackWrite d b, e => Event.ofRow s t (frameOctets s.cfg.wireOrder 0b1010#4 d b) e
  | .ackChange d b, e => Event.ofRow s t (frameOctets s.cfg.wireOrder 0b1011#4 d b) e
  | .errSync d b, e => Event.ofRow s t (frameOctets s.cfg.wireOrder 0b1100#4 d b) e
  | .errRead d b, e => Event.ofRow s t (frameOctets s.cfg.wireOrder 0b1101#4 d b) e
  | .errWrite d b, e => Event.ofRow s t (frameOctets s.cfg.wireOrder 0b1110#4 d b) e
  | .errChange d b, e => Event.ofRow s t (frameOctets s.cfg.wireOrder 0b1111#4 d b) e

/-- The six commands of R70, as against the frame rows. -/
def isCommand : Instr → Bool
  | .init => true
  | .fill _ _ => true
  | .release => true
  | .decode _ => true
  | .encode _ _ _ _ _ _ _ => true
  | .seqNext => true
  | .t0Sync _ _ => false
  | .t0Read _ _ => false
  | .t0Write _ _ => false
  | .t0Change _ _ => false
  | .reqSync _ _ => false
  | .reqRead _ _ => false
  | .reqWrite _ _ => false
  | .reqChange _ _ => false
  | .ackSync _ _ => false
  | .ackRead _ _ => false
  | .ackWrite _ _ => false
  | .ackChange _ _ => false
  | .errSync _ _ => false
  | .errRead _ _ => false
  | .errWrite _ _ => false
  | .errChange _ _ => false

/-- The "cause" and "arguments" columns of R122 in the check order of R127: the fault an instruction raises in an
unfaulted state. A reserved code is no instruction (R72). -/
def Raises (s : State) (i : Instr) : FaultRecord → Prop
  | .uninit cmd => i ≠ .init ∧ s.phase = .uninit ∧ cmd = i.code
  | .illegalCmd _ => False
  | .fillOverrun r space => s.phase = .idle ∧ (∃ data, i = .fill r data ∧ (data.length : Int) = max r 0) ∧
    space = s.cfg.maxFrame - s.rcv ∧ (space : Int) < r
  | .fillLength r count => s.phase = .idle ∧ ∃ data, i = .fill r data ∧ count = data.length ∧ (count : Int) ≠ max r 0
  | .releaseIdle => s.phase = .idle ∧ i = .release
  | .shortHeader count => s.phase ≠ .uninit ∧ ∃ h, i = .decode h ∧ count = h.length ∧ count < hdrLen
  | .encodeOversize len => s.phase ≠ .uninit ∧ (∃ type op dev reg pos seq, i = .encode type op dev reg pos len seq) ∧
    s.cfg.maxPayload.val < len.toNat

/-- Runs instructions one after another, in the order the environment chose (R13, R51). -/
def runAll : List Instr → State → Out
  | [], s => .next s
  | i :: rest, s =>
    match exec i s with
    | .next t => runAll rest t
    | .fault f => .fault f
    | .refused r => .refused r

end Sys2Proof.Machine
end

