-- ==== Sys2Proof/Certificates/Slice0/Obligations.lean ====
section
/-! DEFINITION. The statements for the provers, each from the numbered rules of spec/ its docstring cites. -/

open Sys2Proof Sys2Proof.Machine

/-! ## Encoding and codec -/

/-- Inputs written out decode to the instructions they stand for: the six command codes of R70, with operand
lines as the model lays them out (log 6), and five frames written out from R60, R61, R66, the four LE ones the
bytes of spec/95_test_vectors.md X2, X3, X4, V3. -/
def Obligations.WrittenOutWordsDecode : Prop :=
  decodeInput Config.reference (.command { code := 0b0001#4 }) = .ok .init ∧
  decodeInput Config.reference (.command { code := 0b0010#4, r := 3, bytes := [0x01#8, 0x50#8, 0x2A#8] })
    = .ok (.fill 3 [0x01#8, 0x50#8, 0x2A#8]) ∧
  decodeInput Config.reference (.command { code := 0b0011#4 }) = .ok .release ∧
  decodeInput Config.reference (.command { code := 0b0100#4, bytes := [0x01#8] }) = .ok (.decode [0x01#8]) ∧
  decodeInput Config.reference
    (.command { code := 0b0101#4, type := 2, op := 1, dev := 1, reg := 5, pos := 0, len := 2, seq := 42 })
    = .ok (.encode 2 1 1 5 0 2 42) ∧
  decodeInput Config.reference (.command { code := 0b0110#4 }) = .ok .seqNext ∧
  decodeInput Config.reference
    (.stream [0x01#8, 0x50#8, 0x2A#8, 0x00#8, 0x05#8, 0x00#8, 0x00#8, 0x00#8, 0x00#8, 0x00#8, 0x00#8, 0x00#8])
    = .ok (.reqRead 1#12 { seq := 42, reg := 5, pos := 0, len := 0, crc16 := 0, payload := [] }) ∧
  decodeInput Config.reference
    (.stream [0x01#8, 0x60#8, 0x03#8, 0x00#8, 0x09#8, 0x00#8, 0x00#8, 0x00#8, 0x02#8, 0x00#8, 0x00#8, 0x00#8,
      0xAA#8, 0xBB#8])
    = .ok (.reqWrite 1#12 { seq := 3, reg := 9, pos := 0, len := 2, crc16 := 0, payload := [0xAA#8, 0xBB#8] }) ∧
  decodeInput Config.reference
    (.stream [0x01#8, 0xB0#8, 0x01#8, 0x00#8, 0x00#8, 0x00#8, 0x00#8, 0x00#8, 0x00#8, 0x00#8, 0x00#8, 0x00#8])
    = .ok (.ackChange 1#12 { seq := 1, reg := 0, pos := 0, len := 0, crc16 := 0, payload := [] }) ∧
  decodeInput Config.reference
    (.stream [0xBC#8, 0x3A#8, 0x00#8, 0x00#8, 0x00#8, 0x00#8, 0x00#8, 0x00#8, 0x00#8, 0x00#8, 0x00#8, 0x00#8])
    = .ok (.t0Change 0xABC#12 { seq := 0, reg := 0, pos := 0, len := 0, crc16 := 0, payload := [] }) ∧
  decodeInput { maxPayload := 64, wireOrder := .be }
    (.stream [0x90#8, 0x01#8, 0x00#8, 0x2A#8, 0x00#8, 0x05#8, 0x00#8, 0x00#8, 0x00#8, 0x00#8, 0x00#8, 0x00#8])
    = .ok (.ackRead 1#12 { seq := 42, reg := 5, pos := 0, len := 0, crc16 := 0, payload := [] })

/-- Decoding what the encoder writes gives the instruction back, with every operand, in both byte orders (R60
to R62, R66, R70, R71; the port lines are the model's, log 6). -/
def Obligations.DecodeOfEncodeIsTheInstruction : Prop :=
  ∀ (c : Config) (i : Instr), i.wf = true → decodeInput c (encode c i) = .ok i

/-- The other direction for frames: the octets that decode are exactly those of one whole frame (R60, R65),
and they are the encoding of what they decode to, so no bit of a frame is dropped. -/
def Obligations.FrameOctetsDecodeExactly : Prop :=
  ∀ (c : Config) (octets : List Byte),
    ((∃ i, decodeFrame c octets = .ok i) ↔
      hdrLen ≤ octets.length ∧ octets.length = hdrLen + (frontLen c octets).toNat) ∧
    ∀ i, decodeFrame c octets = .ok i → i.wf = true ∧ encode c i = .stream octets

/-- A reserved code (R72) that stands first in the offers raises F_ILLEGAL_CMD in every unfaulted phase (R127,
item 2); every other code is a command (R70). That the first offer takes the step is the model's (log 5). -/
def Obligations.ReservedCodesRaiseIllegalCmd : Prop :=
  (∀ (s : State) (p : CommandPort) (rest : List Input),
    s.fault = none → s.inputs = .command p :: rest → p.code.toNat = 0 ∨ 7 ≤ p.code.toNat →
    step s = .next (((s.setInputs rest).setFault .illegalCmd).log (.fault (.illegalCmd p.code)))) ∧
  ∀ p : CommandPort, 1 ≤ p.code.toNat ∧ p.code.toNat ≤ 6 → ∃ i, decodeCommand p = .ok i ∧ i.code = p.code

/-- R10: where the two bytes of a word stand in each byte order, and that splitting and combining undo each other. -/
def Obligations.WireOrderOfWords : Prop :=
  (∀ a b : Byte, (word16 .le a b).toNat = a.toNat + 256 * b.toNat ∧
    (word16 .be a b).toNat = 256 * a.toNat + b.toNat) ∧
  (∀ w : Word, bytes16 .le w = [BitVec.ofNat 8 w.toNat, BitVec.ofNat 8 (w.toNat / 256)] ∧
    bytes16 .be w = [BitVec.ofNat 8 (w.toNat / 256), BitVec.ofNat 8 w.toNat]) ∧
  ∀ (o : WireOrder) (w : Word) (a b : Byte),
    bytes16 o (word16 o a b) = [a, b] ∧ (bytes16 o w = [a, b] → word16 o a b = w)

/-- R62, R80: every field of the decoded header, from the twelve header octets, with the two flags; later bytes are ignored. -/
def Obligations.HeaderFieldsAssembled : Prop :=
  ∀ (c : Config) (h : List Byte), hdrLen ≤ h.length →
    let word : Nat → Word := fun k => word16 c.wireOrder (h.getD k 0#8) (h.getD (k + 1) 0#8)
    hdrDecode c h = hdrDecode c (h.take hdrLen) ∧
    ∃ d, hdrDecode c h = some d ∧
      d.type.toNat = (word 0).toNat / 16384 ∧ d.op.toNat = (word 0).toNat / 4096 % 4 ∧
      d.device.toNat = (word 0).toNat % 4096 ∧
      d.seq = word 2 ∧ d.reg = word 4 ∧ d.pos = word 6 ∧ d.len = word 8 ∧ d.crc16 = word 10 ∧
      (d.typeOk = true ↔ d.type.toNat ≠ 0) ∧ (d.lenOk = true ↔ d.len.toNat ≤ c.maxPayload.val)

/-- R82: the packed opdev as a number, and the twelve bytes in header order with crc16 zero. -/
def Obligations.HeaderPackedAsMasked : Prop :=
  ∀ (o : WireOrder) (type op dev reg pos len seq : Word),
    ∃ opdev : Word,
      opdev.toNat = type.toNat % 4 * 16384 + op.toNat % 4 * 4096 + dev.toNat % 4096 ∧
      hdrEncode o type op dev reg pos len seq =
        bytes16 o opdev ++ bytes16 o seq ++ bytes16 o reg ++ bytes16 o pos ++ bytes16 o len ++ bytes16 o 0#16 ∧
      (hdrEncode o type op dev reg pos len seq).length = 12

/-- R84: the round trip for operands in range (type 0 too, with type_ok false), and that the masks break it out of range. -/
def Obligations.HeaderRoundTrip : Prop :=
  ∀ (c : Config) (type op dev reg pos len seq : Word),
    (type.toNat ≤ 3 → op.toNat ≤ 3 → dev.toNat ≤ 4095 → len.toNat ≤ c.maxPayload.val →
      ∃ d, hdrDecode c (hdrEncode c.wireOrder type op dev reg pos len seq) = some d ∧
        d.type.toNat = type.toNat ∧ d.op.toNat = op.toNat ∧ d.device.toNat = dev.toNat ∧
        d.reg = reg ∧ d.pos = pos ∧ d.len = len ∧ d.seq = seq ∧ d.crc16 = 0#16 ∧
        (d.typeOk = true ↔ type.toNat ≠ 0) ∧ d.lenOk = true) ∧
    (3 < type.toNat ∨ 3 < op.toNat ∨ 4095 < dev.toNat →
      ∀ d, hdrDecode c (hdrEncode c.wireOrder type op dev reg pos len seq) = some d →
        ¬ (d.type.toNat = type.toNat ∧ d.op.toNat = op.toNat ∧ d.device.toNat = dev.toNat))

/-- R85: encoding a decoded header gives its bytes back exactly where crc16 was zero, and ENCODE raises where
its `len` is over MAX_PAYLOAD. -/
def Obligations.HeaderReverseLaw : Prop :=
  ∀ (c : Config) (h : List Byte), h.length = 12 →
    ∃ d, hdrDecode c h = some d ∧
      (hdrEncode c.wireOrder (d.type.setWidth 16) (d.op.setWidth 16) (d.device.setWidth 16) d.reg d.pos d.len d.seq = h
        ↔ d.crc16 = 0#16) ∧
      ∀ s : State, s.cfg = c → s.fault = none → s.phase ≠ .uninit →
        exec (.encode (d.type.setWidth 16) (d.op.setWidth 16) (d.device.setWidth 16) d.reg d.pos d.len d.seq) s =
          if c.maxPayload.val < d.len.toNat then
            .next ((s.setFault .encodeOversize).log (.fault (.encodeOversize d.len)))
          else .next (s.log (.event (.encoded (hdrEncode c.wireOrder (d.type.setWidth 16) (d.op.setWidth 16)
            (d.device.setWidth 16) d.reg d.pos d.len d.seq))))

/-- R86: no header bit is lost by decoding, and changing one input of the packer changes only its own field's bytes. -/
def Obligations.HeaderFieldsIndependent : Prop :=
  (∀ (c : Config) (h h' : List Byte), h.length = 12 → h'.length = 12 → hdrDecode c h = hdrDecode c h' → h = h') ∧
  ∀ (o : WireOrder) (type op dev reg pos len seq v : Word) (k : Nat),
    (2 ≤ k →
      (hdrEncode o v op dev reg pos len seq)[k]? = (hdrEncode o type op dev reg pos len seq)[k]? ∧
      (hdrEncode o type v dev reg pos len seq)[k]? = (hdrEncode o type op dev reg pos len seq)[k]? ∧
      (hdrEncode o type op v reg pos len seq)[k]? = (hdrEncode o type op dev reg pos len seq)[k]?) ∧
    (k ≠ 2 ∧ k ≠ 3 → (hdrEncode o type op dev reg pos len v)[k]? = (hdrEncode o type op dev reg pos len seq)[k]?) ∧
    (k ≠ 4 ∧ k ≠ 5 → (hdrEncode o type op dev v pos len seq)[k]? = (hdrEncode o type op dev reg pos len seq)[k]?) ∧
    (k ≠ 6 ∧ k ≠ 7 → (hdrEncode o type op dev reg v len seq)[k]? = (hdrEncode o type op dev reg pos len seq)[k]?) ∧
    (k ≠ 8 ∧ k ≠ 9 → (hdrEncode o type op dev reg pos v seq)[k]? = (hdrEncode o type op dev reg pos len seq)[k]?)

/-- R7: the largest payload and the largest buffer, and that `HDR_LEN + len` fits 17 bits and not always 16. -/
def Obligations.FrameLengthFitsSeventeenBits : Prop :=
  (∀ c : Config, c.maxFrame ≤ 65547) ∧ (∀ len : Word, len.toNat ≤ 65535 ∧ hdrLen + len.toNat < 2 ^ 17) ∧
  ∃ len : Word, 2 ^ 16 ≤ hdrLen + len.toNat

/-! ## Reset, INIT and ports -/

/-- Power-up (R141) as the model's reset (log 1): UNINIT, no fault, empty trace, no cell and no port with a
value; in every configuration. Nothing is said of the values log 2 names. -/
def Obligations.PowerUpHoldsNoValue : Prop :=
  State.reset = State.powerUp Config.reference ∧
  ∀ c : Config, (State.powerUp c).cfg = c ∧ (State.powerUp c).phase = .uninit ∧ (State.powerUp c).fault = none ∧
    (State.powerUp c).trace = [] ∧ (∀ a, (State.powerUp c).buf.read a = none) ∧
    seqInPort (State.powerUp c) = none ∧ seqOutPort (State.powerUp c) = none ∧
    spacePort (State.powerUp c) = none ∧ framePort (State.powerUp c) = none ∧
    statusPort (State.powerUp c) = .uninit

/-- R141, R127 item 3: before the first INIT every other instruction raises F_UNINIT with its command
code. A frame row's code is FILL's (log 7), and that nothing of its octets stays on offer is the model's (log 17). -/
def Obligations.CommandsBeforeInitRaiseUninit : Prop :=
  ∀ (s : State) (i : Instr), s.fault = none → s.phase = .uninit → i ≠ .init →
    exec i s = .next ((s.setFault .uninit).log (.fault (.uninit i.code)))

/-- R140, R142: what INIT leaves, from every unfaulted phase; `fault`, the configuration and the offers stay. -/
def Obligations.InitSetsItsValues : Prop :=
  ∀ s : State, s.fault = none →
    ∃ t, exec .init s = .next t ∧ t.phase = .idle ∧ t.rcv = 0 ∧ (∀ a, t.buf.read a = none) ∧
      t.seqIn = 0#16 ∧ t.seqOut = 0#16 ∧ t.fault = none ∧ t.trace = s.trace ++ [.event .init] ∧
      t.cfg = s.cfg ∧ t.inputs = s.inputs ∧ statusPort t = .needHeader

/-- R31: the status port and its codes. -/
def Obligations.StatusPortShowsPhase : Prop :=
  (∀ s : State,
    (s.fault ≠ none → statusPort s = .fault) ∧
    (s.fault = none → s.phase = .uninit → statusPort s = .uninit) ∧
    (s.fault = none → s.phase = .idle → s.rcv < hdrLen → statusPort s = .needHeader) ∧
    (s.fault = none → s.phase = .idle → hdrLen ≤ s.rcv → statusPort s = .needPayload) ∧
    (s.fault = none → s.phase = .present → statusPort s = .present)) ∧
  Status.uninit.code = 0 ∧ Status.needHeader.code = 1 ∧ Status.needPayload.code = 2 ∧
  Status.present.code = 3 ∧ Status.fault.code = 4

/-- R32, R33: after INIT the `space`, `seq_in` and `seq_out` ports show their values in every phase, and no
instruction takes the block back to before INIT. A port is a function of the state, so a read has no side effect. -/
def Obligations.PortsShowRegistersAfterInit : Prop :=
  (∀ s : State, s.phase ≠ .uninit →
    seqInPort s = some s.seqIn ∧ seqOutPort s = some s.seqOut ∧ spacePort s = some (s.cfg.maxFrame - s.rcv)) ∧
  ∀ (s t : State) (i : Instr), exec i s = .next t → i = .init ∨ s.phase ≠ .uninit → t.phase ≠ .uninit

/-! ## SEQ_NEXT, DECODE, ENCODE -/

/-- R92: SEQ_NEXT's new value, modulo 2^16, and its event; nothing else is written. -/
def Obligations.SeqNextCountsModulo : Prop :=
  ∀ s : State, s.fault = none → s.phase ≠ .uninit →
    ∃ v : Word, v.toNat = (s.seqOut.toNat + 1) % 65536 ∧
      exec .seqNext s = .next ((s.setSeqOut v).log (.event (.seq v)))

/-- R81: DECODE reports the header of its first twelve bytes, or F_SHORT_HEADER; nothing but the trace (and the
fault register) is written; allowed in IDLE and PRESENT. -/
def Obligations.DecodeReportsItsHeader : Prop :=
  ∀ (s : State) (h : List Byte), s.fault = none → s.phase ≠ .uninit →
    (hdrLen ≤ h.length → ∃ d, hdrDecode s.cfg h = some d ∧ exec (.decode h) s = .next (s.log (.event (.decoded d)))) ∧
    (h.length < hdrLen →
      exec (.decode h) s = .next ((s.setFault .shortHeader).log (.fault (.shortHeader h.length))))

/-- R83: ENCODE reports the twelve bytes of R82, or F_ENCODE_OVERSIZE; nothing but the trace (and the fault
register) is written; allowed in IDLE and PRESENT. -/
def Obligations.EncodeReportsItsBytes : Prop :=
  ∀ (s : State) (type op dev reg pos len seq : Word), s.fault = none → s.phase ≠ .uninit →
    (len.toNat ≤ s.cfg.maxPayload.val →
      exec (.encode type op dev reg pos len seq) s =
        .next (s.log (.event (.encoded (hdrEncode s.cfg.wireOrder type op dev reg pos len seq))))) ∧
    (s.cfg.maxPayload.val < len.toNat →
      exec (.encode type op dev reg pos len seq) s =
        .next ((s.setFault .encodeOversize).log (.fault (.encodeOversize len))))

/-! ## The reassembler -/

/-- R106 to R109, R128: SCAN's four outcomes, read off the bytes held, with exactly what each writes; a discard
may keep or erase the cells, so they are left open. -/
def Obligations.ScanOutcomesFromHeldBytes : Prop :=
  ∀ (s : State) (bytes : List Byte), Holds s bytes →
    (bytes.length < hdrLen → scan s = .next (s.log (.event (.needHeader s.rcv)))) ∧
    (hdrLen ≤ bytes.length → s.cfg.maxPayload.val < (frontLen s.cfg bytes).toNat →
      ∃ cells, scan s = .next (((s.setBuf cells).setRcv 0).log (.event (.oversize (frontLen s.cfg bytes) s.rcv)))) ∧
    (hdrLen ≤ bytes.length → (frontLen s.cfg bytes).toNat ≤ s.cfg.maxPayload.val →
      bytes.length < hdrLen + (frontLen s.cfg bytes).toNat →
      scan s = .next (s.log (.event (.needPayload s.rcv (hdrLen + (frontLen s.cfg bytes).toNat))))) ∧
    ((frontLen s.cfg bytes).toNat ≤ s.cfg.maxPayload.val →
      hdrLen + (frontLen s.cfg bytes).toNat ≤ bytes.length →
      ∃ hdr, hdrDecode s.cfg (bytes.take hdrLen) = some hdr ∧
        scan s = .next (((s.setSeqIn hdr.seq).setPhase .present).log
          (.event (.frame hdr ((bytes.drop hdrLen).take (frontLen s.cfg bytes).toNat)))))

/-- R102, R103, R104: every outcome of an unfaulted FILL, in its check order (R127), over the bytes the block holds. -/
def Obligations.FillOutcomes : Prop :=
  ∀ (s : State) (bytes data : List Byte) (r : Int), s.fault = none → Holds s bytes →
    (s.phase = .uninit →
      exec (.fill r data) s = .next ((s.setFault .uninit).log (.fault (.uninit 0b0010#4)))) ∧
    (s.phase = .present → exec (.fill r data) s = .next s) ∧
    (s.phase = .idle →
      ((data.length : Int) ≠ max r 0 →
        exec (.fill r data) s = .next ((s.setFault .fillLength).log (.fault (.fillLength r data.length)))) ∧
      ((data.length : Int) = max r 0 → r ≤ 0 → exec (.fill r data) s = .next (s.log (.event (.noData r)))) ∧
      ((data.length : Int) = max r 0 → ((s.cfg.maxFrame - s.rcv : Nat) : Int) < r →
        exec (.fill r data) s =
          .next ((s.setFault .fillOverrun).log (.fault (.fillOverrun r (s.cfg.maxFrame - s.rcv))))) ∧
      ((data.length : Int) = r → 0 < r → r ≤ ((s.cfg.maxFrame - s.rcv : Nat) : Int) →
        ∃ t, exec (.fill r data) s = .next t ∧ Scanned s t (bytes ++ data) ∧
          (t.rcv = s.rcv + data.length →
            (∀ k, k < data.length → t.buf.read (s.rcv + k) = data[k]?) ∧
            ∀ a, a < s.rcv ∨ s.rcv + data.length ≤ a → t.buf.read a = s.buf.read a)))

/-- R111, R112: every outcome of an unfaulted RELEASE; the leftover moves to address 0 in order and SCAN runs on it. -/
def Obligations.ReleaseOutcomes : Prop :=
  ∀ (s : State) (bytes : List Byte), s.fault = none → Holds s bytes →
    (s.phase = .uninit → exec .release s = .next ((s.setFault .uninit).log (.fault (.uninit 0b0011#4)))) ∧
    (s.phase = .idle → exec .release s = .next ((s.setFault .releaseIdle).log (.fault .releaseIdle))) ∧
    (s.phase = .present → s.rcv ≤ s.cfg.maxFrame → hdrLen + (frontLen s.cfg bytes).toNat ≤ bytes.length →
      let left := bytes.drop (hdrLen + (frontLen s.cfg bytes).toNat)
      ∃ t, exec .release s = .next t ∧ Scanned s t left ∧
        (t.rcv = left.length →
          (∀ k, k < left.length → t.buf.read k = left[k]?) ∧ ∀ a, left.length ≤ a → t.buf.read a = s.buf.read a))

/-- R145 (and R12's hold): a FILL offered in PRESENT changes nothing, whatever its operands, and stays offered. -/
def Obligations.FillHoldsWhilePresent : Prop :=
  ∀ s : State, s.fault = none → s.phase = .present →
    (∀ (r : Int) (data : List Byte), exec (.fill r data) s = .next s) ∧
    ∀ p : CommandPort, p.code = 0b0010#4 → s.inputs = [.command p] → step s = .next s

/-- The same for octets of the byte stream, which arrive by FILL in the model's reading (log 7): every frame row
holds in PRESENT, and while every offer is a FILL or octets no step changes anything (log 5). -/
def Obligations.StreamHoldsWhilePresent : Prop :=
  ∀ s : State, s.fault = none → s.phase = .present →
    (∀ (device : BitVec 12) (body : FrameBody) (i : Instr) (kind : BitVec 4),
      (i, kind) ∈ frameRows device body → exec i s = .next s) ∧
    ((∀ x ∈ s.inputs, (∃ octets, x = .stream octets) ∨ ∃ p : CommandPort, p.code = 0b0010#4 ∧ x = .command p) →
      step s = .next s)

/-- R146: the held FILL stays offered while RELEASE or INIT behind it takes its step, and takes its own step
once no frame is presented; that a later offer may pass the held one is the model's reading (log 5). -/
def Obligations.HeldFillStaysOffered : Prop :=
  ∀ (s : State) (p q : CommandPort) (rest : List Input), s.fault = none → p.code = 0b0010#4 →
    (s.phase = .present → s.inputs = .command p :: .command q :: rest → q.code = 0b0011#4 →
      step s = exec .release (s.setInputs (.command p :: rest))) ∧
    (s.phase = .present → s.inputs = .command p :: .command q :: rest → q.code = 0b0001#4 →
      step s = exec .init (s.setInputs (.command p :: rest))) ∧
    (s.phase ≠ .present → s.inputs = .command p :: rest →
      step s = exec (.fill p.r p.bytes) (s.setInputs rest))

/-- The frame rows of R66 on an empty buffer, in the model's reading of log 7: each is presented (R109, whatever
its type and operation) with the header fields of its row and operands (R62, R80), its `seq` captured (R91). -/
def Obligations.FrameRowsArePresented : Prop :=
  ∀ (s : State) (device : BitVec 12) (body : FrameBody) (i : Instr) (kind : BitVec 4),
    (i, kind) ∈ frameRows device body → s.fault = none → s.phase = .idle → s.rcv = 0 →
    body.payload.length = body.len.toNat → body.len.toNat ≤ s.cfg.maxPayload.val →
    ∃ t hdr, exec i s = .next t ∧ t.phase = .present ∧ t.rcv = hdrLen + body.len.toNat ∧
      t.seqIn = body.seq ∧ t.trace = s.trace ++ [.event (.frame hdr body.payload)] ∧
      framePort t = some (hdr, body.payload) ∧
      hdr.type.toNat = kind.toNat / 4 ∧ hdr.op.toNat = kind.toNat % 4 ∧ hdr.device = device ∧
      hdr.seq = body.seq ∧ hdr.reg = body.reg ∧ hdr.pos = body.pos ∧ hdr.len = body.len ∧ hdr.crc16 = body.crc16 ∧
      (hdr.typeOk = true ↔ kind.toNat / 4 ≠ 0) ∧ hdr.lenOk = true ∧
      t.seqOut = s.seqOut ∧ t.cfg = s.cfg ∧ t.fault = none ∧ t.inputs = s.inputs ∧
      ∀ a, hdrLen + body.len.toNat ≤ a → t.buf.read a = s.buf.read a

/-- The frame rows in every IDLE state (log 7): as many octets as the block asks for are appended and scanned
(R101, R104, R105), the rest stays with the Transport; before INIT, F_UNINIT(0010) (R127), with
nothing put back (log 17). A discard keeps the cells (log 10). -/
def Obligations.FrameRowsAreReceived : Prop :=
  ∀ (s : State) (bytes : List Byte) (device : BitVec 12) (body : FrameBody) (i : Instr) (kind : BitVec 4)
    (octets : List Byte),
    (i, kind) ∈ frameRows device body → encode s.cfg i = .stream octets → s.fault = none →
    (s.phase = .uninit → exec i s = .next ((s.setFault .uninit).log (.fault (.uninit 0b0010#4)))) ∧
    (s.phase = .idle → Holds s bytes → s.rcv < s.cfg.maxFrame →
      ∃ t, exec i s = .next t ∧
        Scanned (s.putBack (octets.drop s.space)) t (bytes ++ octets.take s.space) ∧
        ∀ a, a < s.rcv ∨ s.rcv + (octets.take s.space).length ≤ a → t.buf.read a = s.buf.read a)

/-! ## Frames of the commands: what each leaves unchanged -/

/-- What FILL leaves unchanged where it answers a next state (R102): it stores only at `[rcv, rcv + |data|)`,
and a fault, a hold or no data stores nothing. A discard keeps the cells (log 10). -/
def Obligations.FillLeavesTheRest : Prop :=
  ∀ (s t : State) (r : Int) (data : List Byte), exec (.fill r data) s = .next t →
    t.cfg = s.cfg ∧ t.seqOut = s.seqOut ∧ t.inputs = s.inputs ∧
    (∀ a, a < s.rcv ∨ s.rcv + data.length ≤ a → t.buf.read a = s.buf.read a) ∧
    (t.rcv = s.rcv ∨ t.rcv = s.rcv + data.length ∨ t.rcv = 0) ∧
    (t.phase = s.phase ∨ s.phase = .idle ∧ t.phase = .present) ∧
    (t.phase = s.phase → t.seqIn = s.seqIn) ∧
    (t.fault ≠ none ∨ r ≤ 0 ∨ s.phase ≠ .idle →
      t.phase = s.phase ∧ t.rcv = s.rcv ∧ (∀ a, t.buf.read a = s.buf.read a) ∧ t.seqIn = s.seqIn)

/-- What RELEASE leaves unchanged where it answers a next state (R111): it stores only at `[0, left)`, with
`left = rcv - (HDR_LEN + len)`; without a presented frame it stores nothing. A discard keeps the cells (log 10). -/
def Obligations.ReleaseLeavesTheRest : Prop :=
  ∀ s t : State, exec .release s = .next t →
    t.cfg = s.cfg ∧ t.seqOut = s.seqOut ∧ t.inputs = s.inputs ∧
    (s.phase ≠ .present →
      t.phase = s.phase ∧ t.rcv = s.rcv ∧ t.seqIn = s.seqIn ∧ ∀ a, t.buf.read a = s.buf.read a) ∧
    (s.phase = .present → t.fault = none ∧ (t.phase = .idle → t.seqIn = s.seqIn) ∧
      ∃ len0, s.readWord 8 = .ok len0 ∧ hdrLen + len0.toNat ≤ s.rcv ∧
        ∀ a, s.rcv - (hdrLen + len0.toNat) ≤ a → t.buf.read a = s.buf.read a)

/-- DECODE, ENCODE and SEQ_NEXT never touch the buffer, `phase`, `rcv` or `seq_in` (R41, R81, R83, R92); only
SEQ_NEXT writes `seq_out`, and none of them where it raises a fault. -/
def Obligations.BufferlessCommandsLeaveTheRest : Prop :=
  ∀ (s t : State) (i : Instr),
    ((∃ h, i = .decode h) ∨ (∃ type op dev reg pos len seq, i = .encode type op dev reg pos len seq) ∨ i = .seqNext) →
    exec i s = .next t →
    t.cfg = s.cfg ∧ t.phase = s.phase ∧ t.rcv = s.rcv ∧ t.seqIn = s.seqIn ∧ t.inputs = s.inputs ∧
    (∀ a, t.buf.read a = s.buf.read a) ∧ (i ≠ .seqNext ∨ t.fault ≠ none → t.seqOut = s.seqOut)

/-- What a frame row leaves unchanged where it answers a next state (log 7): it stores only its delivered
octets, at `[rcv, rcv + n)` with `n = min(space, |octets|)`. A discard keeps the cells (log 10). -/
def Obligations.FrameRowsLeaveTheRest : Prop :=
  ∀ (s t : State) (device : BitVec 12) (body : FrameBody) (i : Instr) (kind : BitVec 4) (octets : List Byte),
    (i, kind) ∈ frameRows device body → encode s.cfg i = .stream octets → exec i s = .next t →
    t.cfg = s.cfg ∧ t.seqOut = s.seqOut ∧
    (t.inputs = s.inputs ∨ t.inputs = .stream (octets.drop s.space) :: s.inputs) ∧
    (∀ a, a < s.rcv ∨ s.rcv + (octets.take s.space).length ≤ a → t.buf.read a = s.buf.read a) ∧
    (t.phase = s.phase → t.seqIn = s.seqIn) ∧
    (s.phase ≠ .idle → t.phase = s.phase ∧ t.rcv = s.rcv ∧ (∀ a, t.buf.read a = s.buf.read a) ∧ t.inputs = s.inputs)

/-! ## Faults and events -/

/-- R123: once a fault is recorded no instruction has a step, INIT included (the model stops, log 9); a faulting step writes nothing but
`fault` and `trace`, and its state is no correct end. -/
def Obligations.FaultsAreStickyAndPrecise : Prop :=
  (∀ (s : State) (i : Instr) (c : FaultCode), s.fault = some c → exec i s = .fault (.quiescent c)) ∧
  (∀ (s : State) (x : Input) (rest : List Input) (c : FaultCode), s.fault = some c → s.inputs = x :: rest →
    step s = .fault (.quiescent c)) ∧
  ∀ (s t : State) (i : Instr), exec i s = .next t → t.fault ≠ none →
    (∃ f, t = (s.setFault f.code).log (.fault f)) ∧ ¬ t.Correct

/-- Every instruction's step appends exactly one entry: the event R120 gives it, with its arguments, or the fault
it raises; a FILL that holds appends none (how a hold is written: log 8). The frame rows are deliveries (log 7).
With the event codes of R120 and the fault codes of R122. -/
def Obligations.EveryStepAppendsOneEntry : Prop :=
  (∀ (s t : State) (i : Instr), exec i s = .next t →
    (t = s ∧ s.phase = .present ∧ i.code = 0b0010#4) ∨
    (∃ e, t.trace = s.trace ++ [.event e] ∧ Emits s t i e ∧ t.fault = none) ∨
    (∃ f, t.trace = s.trace ++ [.fault f] ∧ Raises s i f ∧ t.fault = some f.code)) ∧
  Event.init.code = 0x00#8 ∧ (∀ r, (Event.noData r).code = 0x01#8) ∧ (∀ n, (Event.needHeader n).code = 0x02#8) ∧
  (∀ n m, (Event.needPayload n m).code = 0x03#8) ∧ (∀ h p, (Event.frame h p).code = 0x04#8) ∧
  (∀ l n, (Event.oversize l n).code = 0x05#8) ∧ (∀ h, (Event.decoded h).code = 0x06#8) ∧
  (∀ b, (Event.encoded b).code = 0x07#8) ∧ (∀ v, (Event.seq v).code = 0x08#8) ∧
  FaultCode.uninit.code = 0x81#8 ∧ FaultCode.illegalCmd.code = 0x82#8 ∧ FaultCode.fillOverrun.code = 0x83#8 ∧
  FaultCode.fillLength.code = 0x84#8 ∧ FaultCode.releaseIdle.code = 0x85#8 ∧ FaultCode.shortHeader.code = 0x86#8 ∧
  FaultCode.encodeOversize.code = 0x87#8

/-- R120: a command that has a step and raises no fault completes, and appends exactly one event to the trace, the
one R120 gives it with its arguments; with the event codes. -/
def Obligations.CommandsEmitTheirEvents : Prop :=
  (∀ (s : State) (i : Instr), BlockInv s → s.fault = none → isCommand i = true →
    ¬ (i.code = 0b0010#4 ∧ s.phase = .present) → (∀ f, ¬ Raises s i f) →
    ∃ t e, exec i s = .next t ∧ t.fault = none ∧ t.trace = s.trace ++ [.event e] ∧ Emits s t i e) ∧
  Event.init.code = 0x00#8 ∧ (∀ r, (Event.noData r).code = 0x01#8) ∧ (∀ n, (Event.needHeader n).code = 0x02#8) ∧
  (∀ n m, (Event.needPayload n m).code = 0x03#8) ∧ (∀ h p, (Event.frame h p).code = 0x04#8) ∧
  (∀ l n, (Event.oversize l n).code = 0x05#8) ∧ (∀ h, (Event.decoded h).code = 0x06#8) ∧
  (∀ b, (Event.encoded b).code = 0x07#8) ∧ ∀ v, (Event.seq v).code = 0x08#8

/-- R122: a command raises a fault exactly on the causes of that table, and then its code stands in `fault` and the
fault with its arguments on `trace`; a reserved code raises F_ILLEGAL_CMD; with the fault codes. -/
def Obligations.FaultsRaisedOnTheirCauses : Prop :=
  (∀ (s : State) (i : Instr), s.fault = none → isCommand i = true →
    (∀ f, Raises s i f → exec i s = .next ((s.setFault f.code).log (.fault f))) ∧
    ∀ t, exec i s = .next t → t.fault ≠ none →
      ∃ f, Raises s i f ∧ t = (s.setFault f.code).log (.fault f)) ∧
  (∀ (s : State) (p : CommandPort), s.fault = none → p.code.toNat = 0 ∨ 7 ≤ p.code.toNat →
    decodeCommand p = .error (.reservedCode p.code) ∧
    illegalCommand p.code s = .next ((s.setFault .illegalCmd).log (.fault (.illegalCmd p.code)))) ∧
  FaultCode.uninit.code = 0x81#8 ∧ FaultCode.illegalCmd.code = 0x82#8 ∧ FaultCode.fillOverrun.code = 0x83#8 ∧
  FaultCode.fillLength.code = 0x84#8 ∧ FaultCode.releaseIdle.code = 0x85#8 ∧ FaultCode.shortHeader.code = 0x86#8 ∧
  FaultCode.encodeOversize.code = 0x87#8

/-! ## Sequence registers -/

/-- R91: `seq_in` is written by a presentation, with the presented header's `seq`, and by INIT, and by nothing else. -/
def Obligations.SeqInCapturedAtPresentation : Prop :=
  ∀ (s t : State) (i : Instr), exec i s = .next t →
    (∃ hdr payload, t.trace = s.trace ++ [.event (.frame hdr payload)] ∧ t.seqIn = hdr.seq) ∨
    ((∀ hdr payload, t.trace ≠ s.trace ++ [.event (.frame hdr payload)]) ∧
      (if i = .init then t.seqIn = 0#16 else t.seqIn = s.seqIn))

/-- R90: neither sequence register is used to compute the other, and no instruction but INIT writes both. -/
def Obligations.SequenceRegistersIndependent : Prop :=
  ∀ (s t : State) (i : Instr) (v : Word), exec i s = .next t →
    (∃ u, exec i (s.setSeqIn v) = .next u ∧ u.seqOut = t.seqOut) ∧
    (∃ u, exec i (s.setSeqOut v) = .next u ∧ u.seqIn = t.seqIn) ∧
    (i ≠ .init → t.seqIn = s.seqIn ∨ t.seqOut = s.seqOut)

/-- R96: over any run without INIT, the emitted SEQ_NEXT values count up from `seq_out` modulo 2^16; N of them
always run; the first 65536 are pairwise distinct. -/
def Obligations.OutboundNumbersCountUp : Prop :=
  (∀ (s t : State) (is : List Instr), .init ∉ is → runAll is s = .next t → ∃ n : Nat,
    seqValues t.trace = seqValues s.trace ++ (List.range n).map (fun k => s.seqOut + BitVec.ofNat 16 (k + 1)) ∧
    t.seqOut = s.seqOut + BitVec.ofNat 16 n ∧
    (s.phase ≠ .uninit → t.fault = none → n = is.count .seqNext)) ∧
  (∀ (s : State) (n : Nat), s.fault = none → s.phase ≠ .uninit →
    ∃ t, runAll (List.replicate n .seqNext) s = .next t ∧ t.seqOut = s.seqOut + BitVec.ofNat 16 n) ∧
  ∀ (v : Word) (j k : Nat), j < 65536 → k < 65536 → j ≠ k →
    v + BitVec.ofNat 16 (j + 1) ≠ v + BitVec.ofNat 16 (k + 1)

/-- R97: while a frame is presented, a reply encoded with the `seq_in` port's value carries that frame's `seq`. -/
def Obligations.ReplyEchoesPresentedSeq : Prop :=
  ∀ s : State, BlockInv s → s.fault = none → s.phase = .present →
    ∃ hdr payload v, framePort s = some (hdr, payload) ∧ seqInPort s = some v ∧
      ∀ type op dev reg pos len : Word, len.toNat ≤ s.cfg.maxPayload.val →
        ∃ bytes d, exec (.encode type op dev reg pos len v) s = .next (s.log (.event (.encoded bytes))) ∧
          hdrDecode s.cfg bytes = some d ∧ d.seq = hdr.seq

/-! ## Laws of the reassembler -/

/-- R115: a presented frame never reads past the bytes received: its payload is exactly `len` bytes the block holds. -/
def Obligations.NoOverRead : Prop :=
  ∀ (s t : State) (i : Instr) (hdr : Header) (payload : List Byte), exec i s = .next t →
    t.trace = s.trace ++ [.event (.frame hdr payload)] →
    hdrLen + hdr.len.toNat ≤ t.rcv ∧ hdr.len.toNat ≤ t.cfg.maxPayload.val ∧ payload.length = hdr.len.toNat ∧
    ∀ k, k < payload.length → t.buf.read (hdrLen + k) = payload[k]?

/-- R118, first half: one whole frame delivered to an empty buffer in any split into non-empty FILLs gives
exactly one EV_FRAME, on the last FILL, with the header of the frame's first twelve bytes. -/
def Obligations.ChunkingInvariance : Prop :=
  ∀ (s : State) (chunks : List (List Byte)), s.fault = none → s.phase = .idle → s.rcv = 0 →
    (∀ d ∈ chunks, d ≠ []) → WholeFrame s.cfg chunks.flatten →
    ∃ t before hdr, runAll (chunks.map fun d => .fill (d.length : Nat) d) s = .next t ∧
      t.trace = s.trace ++ before ++ [.event (.frame hdr (chunks.flatten.drop hdrLen))] ∧
      hdrDecode s.cfg (chunks.flatten.take hdrLen) = some hdr ∧
      framesOf before = [] ∧ before.length + 1 = chunks.length ∧
      t.phase = .present ∧ Holds t chunks.flatten ∧ t.seqIn = hdr.seq

/-- R118, second half: two whole frames that fit the buffer, delivered in one FILL: the FILL presents the first,
one RELEASE the second, and a second RELEASE leaves nothing. -/
def Obligations.TwoFramesInOneRead : Prop :=
  ∀ (s : State) (f g : List Byte), s.fault = none → s.phase = .idle → s.rcv = 0 →
    WholeFrame s.cfg f → WholeFrame s.cfg g → f.length + g.length ≤ s.cfg.maxFrame →
    ∃ t hf hg, runAll [.fill (f.length + g.length : Nat) (f ++ g), .release, .release] s = .next t ∧
      hdrDecode s.cfg f = some hf ∧ hdrDecode s.cfg g = some hg ∧
      t.trace = s.trace ++ [.event (.frame hf (f.drop hdrLen)), .event (.frame hg (g.drop hdrLen)),
        .event (.needHeader 0)] ∧
      t.rcv = 0 ∧ t.phase = .idle ∧ t.seqIn = hg.seq ∧ t.seqOut = s.seqOut

/-- R56, R113, R114 in the model's reading of the Transport (log 5, 7): a byte stream of any number of whole
frames, offered once with one RELEASE per frame, is presented completely and in order, and nothing is left. -/
def Obligations.StreamOfFramesIsPresentedInOrder : Prop :=
  ∀ (s : State) (frames : List (List Byte)), s.fault = none → s.phase = .idle → s.rcv = 0 →
    (∀ f ∈ frames, WholeFrame s.cfg f) →
    s.inputs = .stream frames.flatten :: List.replicate frames.length (.command { code := 0b0011#4 }) →
    ∃ k t presented, Host.Core.run core k s = .next t ∧
      framesOf t.trace = framesOf s.trace ++ presented ∧
      presented.map (fun x => (some x.1, x.2)) = frames.map (fun f => (hdrDecode s.cfg f, f.drop hdrLen)) ∧
      t.rcv = 0 ∧ t.phase = .idle ∧ t.fault = none ∧ t.inputs = []

/-! ## Invariants and the step -/

/-- The invariant holds at power-up in every configuration, and so at reset. Its clauses on valid bytes hold there
because the model's power-up has `rcv` 0: that value is the model's choice (log 2; R141 gives `rcv` none), and so
is that State.reset is power-up of the reference configuration (log 1, 4). -/
def Obligations.InvariantAtPowerUp : Prop :=
  (∀ c : Config, BlockInv (State.powerUp c)) ∧ BlockInv State.reset

/-- Every step keeps the invariant of the block (R23, R27 to R30, R91): from every state that meets it. -/
def Obligations.EveryStepKeepsTheInvariant : Prop :=
  ∀ s t : State, BlockInv s → step s = .next t → BlockInv t

/-- Every step keeps the buffer's canonical form, from every state that has it. -/
def Obligations.EveryStepKeepsMemoryCanonical : Prop :=
  ∀ s t : State, s.buf.wf → step s = .next t → t.buf.wf

/-- No reachable unfaulted state stops: where the invariant holds and no fault is recorded, every instruction and
every step answers a next state (R12; no read or write leaves the bounds of R40). -/
def Obligations.UnfaultedBlockGoesOn : Prop :=
  ∀ s : State, BlockInv s → s.fault = none → (∀ i : Instr, ∃ t, exec i s = .next t) ∧ ∃ t, step s = .next t

/-- R29: in IDLE no complete frame is held, so `rcv < MAX_FRAME` and `space ≥ 1`. -/
def Obligations.IdleHasSpace : Prop :=
  ∀ (s : State) (bytes : List Byte), BlockInv s → Holds s bytes → s.phase = .idle →
    (bytes.length < hdrLen ∨ (frontLen s.cfg bytes).toNat ≤ s.cfg.maxPayload.val ∧
      bytes.length < hdrLen + (frontLen s.cfg bytes).toNat) ∧
    s.rcv < s.cfg.maxFrame ∧ 1 ≤ s.space ∧ spacePort s = some s.space

/-- R30, R34: in PRESENT the frame at the front of the buffer is whole, is what the frame port shows, and is the
one last reported by EV_FRAME; outside PRESENT the port shows nothing. -/
def Obligations.PresentedFrameIsTheLastReported : Prop :=
  ∀ (s : State) (bytes : List Byte), BlockInv s → Holds s bytes →
    (s.phase = .present → ∃ hdr,
      hdrDecode s.cfg (bytes.take hdrLen) = some hdr ∧ hdrLen ≤ s.rcv ∧ hdr.len = frontLen s.cfg bytes ∧
      hdr.len.toNat ≤ s.cfg.maxPayload.val ∧ hdrLen + hdr.len.toNat ≤ s.rcv ∧
      framePort s = some (hdr, (bytes.drop hdrLen).take hdr.len.toNat) ∧
      (framesOf s.trace).getLast? = some (hdr, (bytes.drop hdrLen).take hdr.len.toNat)) ∧
    (s.phase ≠ .present → framePort s = none)

/-- No step changes the configuration: MAX_PAYLOAD and WIRE_ORDER are build-time constants (R6, R24, R44). -/
def Obligations.ConfigurationNeverChanges : Prop :=
  ∀ s t : State, step s = .next t → t.cfg = s.cfg

/-- A step takes the first offered input that is not held and runs the instruction it decodes to, in the state
without that input; where nothing is offered, the step changes nothing (R12, R13; log 5). -/
def Obligations.StepRunsTheOfferedInstruction : Prop :=
  (∀ (s : State) (x : Input) (rest : List Input) (i : Instr), s.inputs = x :: rest →
    (s.fault ≠ none ∨ s.phase ≠ .present ∨ ∃ p : CommandPort, x = .command p ∧ p.code ≠ 0b0010#4) →
    decodeInput s.cfg x = .ok i → step s = exec i (s.setInputs rest)) ∧
  ∀ s : State, s.inputs = [] → step s = .next s

/-- Octets the Transport holds are delivered by FILLs of at most `space` bytes (R101, R150), whether or not they
are exactly one frame: the frame rows are no more than that delivery (log 7). -/
def Obligations.StreamIsDeliveredByFill : Prop :=
  ∀ (s : State) (octets : List Byte) (rest : List Input), s.fault = none → s.phase = .idle →
    s.inputs = .stream octets :: rest →
    step s = exec (.fill ((octets.take s.space).length : Nat) (octets.take s.space))
      ((s.setInputs rest).putBack (octets.drop s.space))

/-- The end of a run (R153, with the offers as the list of log 5): where nothing is offered no step changes anything;
a correct end has a frame pending or is idle with the bytes of an incomplete frame, and a faulted state is none.
R146: where all that is offered holds, the run is stuck and not ended. An unfaulted step finds nothing to take
exactly in these two cases. -/
def Obligations.RunsEndOrAreStuck : Prop :=
  (∀ s : State, s.Ended → step s = .next s) ∧
  (∀ s : State, BlockInv s → s.Correct →
    (s.FramePending ∧ (∀ n, ¬ s.IdleEnd n) ∧ ∃ frame, framePort s = some frame) ∨
    (¬ s.FramePending ∧ s.IdleEnd s.rcv ∧ ∃ bytes, Holds s bytes ∧
      (bytes.length < hdrLen ∨ bytes.length < hdrLen + (frontLen s.cfg bytes).toNat))) ∧
  (∀ s : State, s.fault ≠ none → ¬ s.Correct) ∧
  (∀ s : State, s.Stuck → step s = .next s ∧ s.fault = none ∧ s.phase = .present ∧ ¬ s.Ended ∧ ¬ s.Correct) ∧
  ∀ s : State, fetch s = .nothing ↔ s.Ended ∨ s.Stuck
end

