-- ==== Sys2Proof/Laws/Codec.lean ====
section
/-! SUPPORT. What the wire-order helpers and the packing of opdev do, and how the unpacker and the frame decoder read header octets. -/

namespace Sys2Proof

theorem bytes16_length (o : WireOrder) (w : Word) : (bytes16 o w).length = 2 := by cases o <;> rfl

theorem headerOctets_length (o : WireOrder) (opdev seq reg pos len crc16 : Word) :
    (headerOctets o opdev seq reg pos len crc16).length = 12 := by
  simp [headerOctets, bytes16_length]

theorem frameOctets_length (o : WireOrder) (kind : BitVec 4) (d : BitVec 12) (b : FrameBody) :
    (frameOctets o kind d b).length = 12 + b.payload.length := by
  simp [frameOctets, headerOctets_length]

theorem bits_low (w : Word) : w.extractLsb' 0 8 = w.setWidth 8 := by
  ext i; simp

theorem halves_join (w : Word) :
    ((w.extractLsb' 0 8).setWidth 16 ||| ((w.extractLsb' 8 8).setWidth 16 <<< 8) : Word) = w := by
  apply BitVec.eq_of_getLsbD_eq
  intro i hi
  by_cases h : i < 8
  · simp [h, hi]
  · simp only [BitVec.getLsbD_or, BitVec.getLsbD_setWidth, BitVec.getLsbD_extractLsb', BitVec.getLsbD_shiftLeft, hi]
    have : i - 8 < 8 := by omega
    have e : 8 + (i - 8) = i := by omega
    simp [h, this, e]
    omega

theorem halves_join_low (a b : Byte) :
    ((a.setWidth 16 ||| (b.setWidth 16 <<< 8) : Word)).extractLsb' 0 8 = a := by
  apply BitVec.eq_of_getLsbD_eq
  intro i hi
  simp [hi, show i < 16 by omega]

theorem halves_join_high (a b : Byte) :
    ((a.setWidth 16 ||| (b.setWidth 16 <<< 8) : Word)).extractLsb' 8 8 = b := by
  apply BitVec.eq_of_getLsbD_eq
  intro i hi
  simp [hi, show 8 + i < 16 by omega]

/-- The two bytes of a word, and the word they combine to (R10). -/
theorem bytes16_pair (o : WireOrder) (w : Word) : ∃ x y, bytes16 o w = [x, y] ∧ word16 o x y = w := by
  cases o
  · exact ⟨_, _, rfl, halves_join w⟩
  · exact ⟨_, _, rfl, (BitVec.or_comm _ _).trans (halves_join w)⟩

/-- The bytes a combined word splits into (R10). -/
theorem bytes16_word16 (o : WireOrder) (a b : Byte) : bytes16 o (word16 o a b) = [a, b] := by
  cases o
  · simp [bytes16, word16, halves_join_low, halves_join_high]
  · simp [bytes16, word16, BitVec.or_comm (a.setWidth 16 <<< 8), halves_join_low, halves_join_high]

/-- The header octets one by one, with the words they combine to (R60, R62). -/
theorem headerOctets_split (o : WireOrder) (w0 w1 w2 w3 w4 w5 : Word) :
    ∃ h0 h1 h2 h3 h4 h5 h6 h7 h8 h9 h10 h11,
      headerOctets o w0 w1 w2 w3 w4 w5 = [h0, h1, h2, h3, h4, h5, h6, h7, h8, h9, h10, h11] ∧
      word16 o h0 h1 = w0 ∧ word16 o h2 h3 = w1 ∧ word16 o h4 h5 = w2 ∧ word16 o h6 h7 = w3 ∧
      word16 o h8 h9 = w4 ∧ word16 o h10 h11 = w5 := by
  obtain ⟨a0, b0, e0, j0⟩ := bytes16_pair o w0
  obtain ⟨a1, b1, e1, j1⟩ := bytes16_pair o w1
  obtain ⟨a2, b2, e2, j2⟩ := bytes16_pair o w2
  obtain ⟨a3, b3, e3, j3⟩ := bytes16_pair o w3
  obtain ⟨a4, b4, e4, j4⟩ := bytes16_pair o w4
  obtain ⟨a5, b5, e5, j5⟩ := bytes16_pair o w5
  exact ⟨a0, b0, a1, b1, a2, b2, a3, b3, a4, b4, a5, b5,
    by simp [headerOctets, e0, e1, e2, e3, e4, e5], j0, j1, j2, j3, j4, j5⟩

/-- The unpacker reads the six words of header octets, whatever follows them (R62, R80). -/
theorem hdrDecode_headerOctets (c : Config) (w0 w1 w2 w3 w4 w5 : Word) (rest : List Byte) :
    hdrDecode c (headerOctets c.wireOrder w0 w1 w2 w3 w4 w5 ++ rest) = some (headerOfWords c w0 w1 w2 w3 w4 w5) := by
  obtain ⟨h0, h1, h2, h3, h4, h5, h6, h7, h8, h9, h10, h11, e, j0, j1, j2, j3, j4, j5⟩ :=
    headerOctets_split c.wireOrder w0 w1 w2 w3 w4 w5
  simp [e, hdrDecode, j0, j1, j2, j3, j4, j5]

/-- The unpacker answers exactly where twelve bytes are given, and its `len` is the word at bytes 8 and 9. -/
theorem hdrDecode_some {c : Config} {h : List Byte} (hl : 12 ≤ h.length) :
    ∃ hdr, hdrDecode c h = some hdr ∧
      ∃ x y, h[8]? = some x ∧ h[9]? = some y ∧ hdr.len = word16 c.wireOrder x y := by
  match h, hl with
  | h0 :: h1 :: h2 :: h3 :: h4 :: h5 :: h6 :: h7 :: h8 :: h9 :: h10 :: h11 :: rest, _ =>
    exact ⟨_, rfl, h8, h9, rfl, rfl, rfl⟩

theorem hdrDecode_none_iff {c : Config} {h : List Byte} : hdrDecode c h = none ↔ h.length < 12 := by
  refine ⟨fun e => ?_, fun hl => ?_⟩
  · by_contra hl
    obtain ⟨hdr, h', -⟩ := hdrDecode_some (c := c) (Nat.le_of_not_lt hl)
    simp [h'] at e
  · unfold hdrDecode
    split
    · simp only [List.length_cons] at hl; omega
    · rfl

/-- The unpacker ignores bytes beyond the twelfth (R80). -/
theorem hdrDecode_take {c : Config} {h : List Byte} (hl : 12 ≤ h.length) :
    hdrDecode c (h.take 12) = hdrDecode c h := by
  match h, hl with
  | h0 :: h1 :: h2 :: h3 :: h4 :: h5 :: h6 :: h7 :: h8 :: h9 :: h10 :: h11 :: rest, _ => rfl

theorem opdevType_pack (t o d : Word) : opdevType (packOpdev t o d) = t.setWidth 2 := by
  apply BitVec.eq_of_getLsbD_eq
  intro i hi
  rcases (by omega : i = 0 ∨ i = 1) with rfl | rfl <;>
    simp [opdevType, packOpdev]

theorem opdevOp_pack (t o d : Word) : opdevOp (packOpdev t o d) = o.setWidth 2 := by
  apply BitVec.eq_of_getLsbD_eq
  intro i hi
  rcases (by omega : i = 0 ∨ i = 1) with rfl | rfl <;>
    simp [opdevOp, packOpdev]

theorem opdevDevice_pack (t o d : Word) : opdevDevice (packOpdev t o d) = d.setWidth 12 := by
  apply BitVec.eq_of_getLsbD_eq
  intro i hi
  interval_cases i <;> simp [opdevDevice, packOpdev]

/-- The bits of an opdev word put together from `opdev[15:12]` and the device index (R61). -/
theorem getLsbD_join (k : BitVec 4) (d : BitVec 12) (i : Nat) :
    (k ++ d : Word).getLsbD i = if i < 12 then d.getLsbD i else k.getLsbD (i - 12) :=
  BitVec.getLsbD_append

theorem opdevDevice_append (k : BitVec 4) (d : BitVec 12) : opdevDevice (k ++ d) = d := by
  apply BitVec.eq_of_getLsbD_eq
  intro i hi
  simp only [opdevDevice, BitVec.getLsbD_extractLsb', getLsbD_join, hi, Nat.zero_add, decide_true, Bool.true_and, if_true]

theorem opdevType_append (k : BitVec 4) (d : BitVec 12) : opdevType (k ++ d) = k.extractLsb' 2 2 := by
  apply BitVec.eq_of_getLsbD_eq
  intro i hi
  simp only [opdevType, BitVec.getLsbD_extractLsb', getLsbD_join, if_neg (by omega : ¬ 14 + i < 12),
    show 14 + i - 12 = 2 + i by omega]

theorem opdevOp_append (k : BitVec 4) (d : BitVec 12) : opdevOp (k ++ d) = k.extractLsb' 0 2 := by
  apply BitVec.eq_of_getLsbD_eq
  intro i hi
  simp only [opdevOp, BitVec.getLsbD_extractLsb', getLsbD_join, if_neg (by omega : ¬ 12 + i < 12),
    show 12 + i - 12 = 0 + i by omega]

/-- An opdev word is its type, operation and device index (R61). -/
theorem opdev_join (w : Word) : (w.extractLsb' 12 4 ++ opdevDevice w : Word) = w := by
  apply BitVec.eq_of_getLsbD_eq
  intro i hi
  rw [getLsbD_join]
  split
  · rename_i h; simp only [opdevDevice, BitVec.getLsbD_extractLsb', h, Nat.zero_add, decide_true, Bool.true_and]
  · rename_i h
    simp only [BitVec.getLsbD_extractLsb', show i - 12 < 4 by omega, decide_true, Bool.true_and,
      show 12 + (i - 12) = i by omega]

/-- The frame decoder on header octets and what follows them (R60, R65). -/
theorem decodeFrame_headerOctets (c : Config) (w0 w1 w2 w3 w4 w5 : Word) (payload : List Byte) :
    decodeFrame c (headerOctets c.wireOrder w0 w1 w2 w3 w4 w5 ++ payload) =
      if payload.length = w4.toNat then
        .ok (frameOfOpdev w0 { seq := w1, reg := w2, pos := w3, len := w4, crc16 := w5, payload := payload })
      else .error (.payloadLength w4.toNat payload.length) := by
  obtain ⟨h0, h1, h2, h3, h4, h5, h6, h7, h8, h9, h10, h11, e, j0, j1, j2, j3, j4, j5⟩ :=
    headerOctets_split c.wireOrder w0 w1 w2 w3 w4 w5
  simp [e, decodeFrame, j0, j1, j2, j3, j4, j5]

end Sys2Proof
end

