-- ==== Sys2Proof/Laws/State.lean ====
section
/-! SUPPORT. One lemma per field per update of State, so that no proof unfolds a record update. -/

namespace Sys2Proof.Machine

@[simp] theorem State.setPhase_cfg (s : State) (v : Phase) : (s.setPhase v).cfg = s.cfg := rfl
@[simp] theorem State.setPhase_phase (s : State) (v : Phase) : (s.setPhase v).phase = v := rfl
@[simp] theorem State.setPhase_rcv (s : State) (v : Phase) : (s.setPhase v).rcv = s.rcv := rfl
@[simp] theorem State.setPhase_buf (s : State) (v : Phase) : (s.setPhase v).buf = s.buf := rfl
@[simp] theorem State.setPhase_seqIn (s : State) (v : Phase) : (s.setPhase v).seqIn = s.seqIn := rfl
@[simp] theorem State.setPhase_seqOut (s : State) (v : Phase) : (s.setPhase v).seqOut = s.seqOut := rfl
@[simp] theorem State.setPhase_fault (s : State) (v : Phase) : (s.setPhase v).fault = s.fault := rfl
@[simp] theorem State.setPhase_trace (s : State) (v : Phase) : (s.setPhase v).trace = s.trace := rfl
@[simp] theorem State.setPhase_inputs (s : State) (v : Phase) : (s.setPhase v).inputs = s.inputs := rfl

@[simp] theorem State.setRcv_cfg (s : State) (v : Nat) : (s.setRcv v).cfg = s.cfg := rfl
@[simp] theorem State.setRcv_phase (s : State) (v : Nat) : (s.setRcv v).phase = s.phase := rfl
@[simp] theorem State.setRcv_rcv (s : State) (v : Nat) : (s.setRcv v).rcv = v := rfl
@[simp] theorem State.setRcv_buf (s : State) (v : Nat) : (s.setRcv v).buf = s.buf := rfl
@[simp] theorem State.setRcv_seqIn (s : State) (v : Nat) : (s.setRcv v).seqIn = s.seqIn := rfl
@[simp] theorem State.setRcv_seqOut (s : State) (v : Nat) : (s.setRcv v).seqOut = s.seqOut := rfl
@[simp] theorem State.setRcv_fault (s : State) (v : Nat) : (s.setRcv v).fault = s.fault := rfl
@[simp] theorem State.setRcv_trace (s : State) (v : Nat) : (s.setRcv v).trace = s.trace := rfl
@[simp] theorem State.setRcv_inputs (s : State) (v : Nat) : (s.setRcv v).inputs = s.inputs := rfl

@[simp] theorem State.setBuf_cfg (s : State) (v : Memory) : (s.setBuf v).cfg = s.cfg := rfl
@[simp] theorem State.setBuf_phase (s : State) (v : Memory) : (s.setBuf v).phase = s.phase := rfl
@[simp] theorem State.setBuf_rcv (s : State) (v : Memory) : (s.setBuf v).rcv = s.rcv := rfl
@[simp] theorem State.setBuf_buf (s : State) (v : Memory) : (s.setBuf v).buf = v := rfl
@[simp] theorem State.setBuf_seqIn (s : State) (v : Memory) : (s.setBuf v).seqIn = s.seqIn := rfl
@[simp] theorem State.setBuf_seqOut (s : State) (v : Memory) : (s.setBuf v).seqOut = s.seqOut := rfl
@[simp] theorem State.setBuf_fault (s : State) (v : Memory) : (s.setBuf v).fault = s.fault := rfl
@[simp] theorem State.setBuf_trace (s : State) (v : Memory) : (s.setBuf v).trace = s.trace := rfl
@[simp] theorem State.setBuf_inputs (s : State) (v : Memory) : (s.setBuf v).inputs = s.inputs := rfl

@[simp] theorem State.setSeqIn_cfg (s : State) (v : Word) : (s.setSeqIn v).cfg = s.cfg := rfl
@[simp] theorem State.setSeqIn_phase (s : State) (v : Word) : (s.setSeqIn v).phase = s.phase := rfl
@[simp] theorem State.setSeqIn_rcv (s : State) (v : Word) : (s.setSeqIn v).rcv = s.rcv := rfl
@[simp] theorem State.setSeqIn_buf (s : State) (v : Word) : (s.setSeqIn v).buf = s.buf := rfl
@[simp] theorem State.setSeqIn_seqIn (s : State) (v : Word) : (s.setSeqIn v).seqIn = v := rfl
@[simp] theorem State.setSeqIn_seqOut (s : State) (v : Word) : (s.setSeqIn v).seqOut = s.seqOut := rfl
@[simp] theorem State.setSeqIn_fault (s : State) (v : Word) : (s.setSeqIn v).fault = s.fault := rfl
@[simp] theorem State.setSeqIn_trace (s : State) (v : Word) : (s.setSeqIn v).trace = s.trace := rfl
@[simp] theorem State.setSeqIn_inputs (s : State) (v : Word) : (s.setSeqIn v).inputs = s.inputs := rfl

@[simp] theorem State.setSeqOut_cfg (s : State) (v : Word) : (s.setSeqOut v).cfg = s.cfg := rfl
@[simp] theorem State.setSeqOut_phase (s : State) (v : Word) : (s.setSeqOut v).phase = s.phase := rfl
@[simp] theorem State.setSeqOut_rcv (s : State) (v : Word) : (s.setSeqOut v).rcv = s.rcv := rfl
@[simp] theorem State.setSeqOut_buf (s : State) (v : Word) : (s.setSeqOut v).buf = s.buf := rfl
@[simp] theorem State.setSeqOut_seqIn (s : State) (v : Word) : (s.setSeqOut v).seqIn = s.seqIn := rfl
@[simp] theorem State.setSeqOut_seqOut (s : State) (v : Word) : (s.setSeqOut v).seqOut = v := rfl
@[simp] theorem State.setSeqOut_fault (s : State) (v : Word) : (s.setSeqOut v).fault = s.fault := rfl
@[simp] theorem State.setSeqOut_trace (s : State) (v : Word) : (s.setSeqOut v).trace = s.trace := rfl
@[simp] theorem State.setSeqOut_inputs (s : State) (v : Word) : (s.setSeqOut v).inputs = s.inputs := rfl

@[simp] theorem State.setFault_cfg (s : State) (v : FaultCode) : (s.setFault v).cfg = s.cfg := rfl
@[simp] theorem State.setFault_phase (s : State) (v : FaultCode) : (s.setFault v).phase = s.phase := rfl
@[simp] theorem State.setFault_rcv (s : State) (v : FaultCode) : (s.setFault v).rcv = s.rcv := rfl
@[simp] theorem State.setFault_buf (s : State) (v : FaultCode) : (s.setFault v).buf = s.buf := rfl
@[simp] theorem State.setFault_seqIn (s : State) (v : FaultCode) : (s.setFault v).seqIn = s.seqIn := rfl
@[simp] theorem State.setFault_seqOut (s : State) (v : FaultCode) : (s.setFault v).seqOut = s.seqOut := rfl
@[simp] theorem State.setFault_fault (s : State) (v : FaultCode) : (s.setFault v).fault = some v := rfl
@[simp] theorem State.setFault_trace (s : State) (v : FaultCode) : (s.setFault v).trace = s.trace := rfl
@[simp] theorem State.setFault_inputs (s : State) (v : FaultCode) : (s.setFault v).inputs = s.inputs := rfl

@[simp] theorem State.log_cfg (s : State) (v : TraceEntry) : (s.log v).cfg = s.cfg := rfl
@[simp] theorem State.log_phase (s : State) (v : TraceEntry) : (s.log v).phase = s.phase := rfl
@[simp] theorem State.log_rcv (s : State) (v : TraceEntry) : (s.log v).rcv = s.rcv := rfl
@[simp] theorem State.log_buf (s : State) (v : TraceEntry) : (s.log v).buf = s.buf := rfl
@[simp] theorem State.log_seqIn (s : State) (v : TraceEntry) : (s.log v).seqIn = s.seqIn := rfl
@[simp] theorem State.log_seqOut (s : State) (v : TraceEntry) : (s.log v).seqOut = s.seqOut := rfl
@[simp] theorem State.log_fault (s : State) (v : TraceEntry) : (s.log v).fault = s.fault := rfl
@[simp] theorem State.log_trace (s : State) (v : TraceEntry) : (s.log v).trace = s.trace ++ [v] := rfl
@[simp] theorem State.log_inputs (s : State) (v : TraceEntry) : (s.log v).inputs = s.inputs := rfl

@[simp] theorem State.setInputs_cfg (s : State) (v : List Input) : (s.setInputs v).cfg = s.cfg := rfl
@[simp] theorem State.setInputs_phase (s : State) (v : List Input) : (s.setInputs v).phase = s.phase := rfl
@[simp] theorem State.setInputs_rcv (s : State) (v : List Input) : (s.setInputs v).rcv = s.rcv := rfl
@[simp] theorem State.setInputs_buf (s : State) (v : List Input) : (s.setInputs v).buf = s.buf := rfl
@[simp] theorem State.setInputs_seqIn (s : State) (v : List Input) : (s.setInputs v).seqIn = s.seqIn := rfl
@[simp] theorem State.setInputs_seqOut (s : State) (v : List Input) : (s.setInputs v).seqOut = s.seqOut := rfl
@[simp] theorem State.setInputs_fault (s : State) (v : List Input) : (s.setInputs v).fault = s.fault := rfl
@[simp] theorem State.setInputs_trace (s : State) (v : List Input) : (s.setInputs v).trace = s.trace := rfl
@[simp] theorem State.setInputs_inputs (s : State) (v : List Input) : (s.setInputs v).inputs = v := rfl

end Sys2Proof.Machine
end

