-- ==== Sys2Proof/Laws/Ops.lean ====
section
/-! SUPPORT. One lemma per shared operation that says what it can do: the common checks, reads through the abstract bytes, SCAN, append, the leftover shift, and the fetch. -/

namespace Sys2Proof.Machine

theorem hdrLen_eq : hdrLen = 12 := rfl

/-! ## Common checks -/

theorem unlessFaulted_none {s : State} (h : s.fault = none) (k : State → Out) : unlessFaulted s k = k s := by
  simp [unlessFaulted, h]

theorem unlessFaulted_some {s : State} {c : FaultCode} (h : s.fault = some c) (k : State → Out) :
    unlessFaulted s k = .fault (.quiescent c) := by
  simp [unlessFaulted, h]

/-- A checked command answers only in an unfaulted state. -/
theorem unlessFaulted_next {s t : State} {k : State → Out} (h : unlessFaulted s k = .next t) :
    s.fault = none ∧ k s = .next t := by
  unfold unlessFaulted at h
  split at h
  · cases h
  · exact ⟨‹_›, h⟩

theorem whenInitialised_ready {s : State} {cmd : BitVec 4} (hf : s.fault = none) (hp : s.phase ≠ .uninit)
    (k : State → Out) : whenInitialised cmd s k = k s := by
  simp [whenInitialised, unlessFaulted_none hf, hp]

theorem whenInitialised_uninit {s : State} {cmd : BitVec 4} (hf : s.fault = none) (hp : s.phase = .uninit)
    (k : State → Out) : whenInitialised cmd s k = raise (.uninit cmd) s := by
  simp [whenInitialised, unlessFaulted_none hf, hp]

/-- What a command other than INIT can answer: F_UNINIT before INIT, or its own effect. -/
theorem whenInitialised_next {s t : State} {cmd : BitVec 4} {k : State → Out}
    (h : whenInitialised cmd s k = .next t) :
    s.fault = none ∧ ((s.phase = .uninit ∧ raise (.uninit cmd) s = .next t) ∨
      (s.phase ≠ .uninit ∧ k s = .next t)) := by
  obtain ⟨hf, h⟩ := unlessFaulted_next h
  refine ⟨hf, ?_⟩
  split at h
  · exact .inl ⟨‹_›, h⟩
  · exact .inr ⟨‹_›, h⟩

theorem unlessPresent_next {s t : State} {k : State → Out} (h : unlessPresent s k = .next t) :
    (s.phase = .present ∧ t = s) ∨ (s.phase ≠ .present ∧ k s = .next t) := by
  unfold unlessPresent at h
  split at h
  · cases h; exact .inl ⟨‹_›, rfl⟩
  · exact .inr ⟨‹_›, h⟩

theorem orStop_next {α : Type} {x : Except Fault α} {k : α → Out} {t : State} (h : orStop x k = .next t) :
    ∃ v, x = .ok v ∧ k v = .next t := by
  cases x with
  | error f => cases h
  | ok v => exact ⟨v, rfl, h⟩

@[simp] theorem orStop_ok {α : Type} (v : α) (k : α → Out) : orStop (.ok v) k = k v := rfl

/-! ## Reads through the bytes the block holds -/

theorem readByte_some {s : State} {a : Nat} {b : Byte} (h : s.readByte a = some b) :
    a < s.rcv ∧ s.buf.read a = some b := by
  unfold State.readByte at h
  split at h
  · exact ⟨‹_›, h⟩
  · cases h

theorem readByte_of_holds {s : State} {bs : List Byte} (h : Holds s bs) (a : Nat) : s.readByte a = bs[a]? := by
  unfold State.readByte
  split
  · exact h.2 a (h.1 ▸ ‹_›)
  · rename_i hn
    rw [List.getElem?_eq_none]
    have := h.1
    omega

/-- MemRead inside the valid bytes gives those bytes (R40). -/
theorem readBytes_of_holds {s : State} {bs : List Byte} (h : Holds s bs) (a n : Nat) (hn : a + n ≤ bs.length) :
    s.readBytes a n = .ok ((bs.drop a).take n) := by
  induction n generalizing a with
  | zero => simp [State.readBytes]
  | succ n ih =>
    have ha : a < bs.length := by omega
    simp only [State.readBytes, readByte_of_holds h, List.getElem?_eq_getElem ha, ih (a + 1) (by omega)]
    rw [List.drop_eq_getElem_cons ha, List.take_succ_cons]

/-- What a MemRead that answers has read (R40). -/
theorem readBytes_ok {s : State} {a n : Nat} {bs : List Byte} (h : s.readBytes a n = .ok bs) :
    bs.length = n ∧ (n = 0 ∨ a + n ≤ s.rcv) ∧ ∀ i, i < n → s.buf.read (a + i) = bs[i]? := by
  induction n generalizing a bs with
  | zero => cases h; simp
  | succ n ih =>
    simp only [State.readBytes] at h
    split at h
    · cases h
    · rename_i b hb
      split at h
      · cases h
      · rename_i rest hr
        cases h
        obtain ⟨h1, h2, h3⟩ := ih hr
        obtain ⟨hb1, hb2⟩ := readByte_some hb
        refine ⟨by simp [h1], .inr (by omega), fun i hi => ?_⟩
        cases i with
        | zero => simpa using hb2
        | succ i =>
          have := h3 i (by omega)
          simpa [Nat.add_assoc, Nat.add_comm 1 i] using this

/-- The word at the valid addresses `a` and `a + 1` (R47). -/
theorem readWord_ok {s : State} {a : Nat} {w : Word} (h : s.readWord a = .ok w) :
    ∃ x y, s.readByte a = some x ∧ s.readByte (a + 1) = some y ∧ w = word16 s.cfg.wireOrder x y := by
  unfold State.readWord at h
  split at h
  · rename_i x y hx hy; cases h; exact ⟨x, y, hx, hy, rfl⟩
  · cases h
  · cases h

theorem readWord_of_holds {s : State} {bs : List Byte} (h : Holds s bs) (hl : hdrLen ≤ bs.length) :
    s.readWord 8 = .ok (frontLen s.cfg bs) := by
  rw [hdrLen_eq] at hl
  have h8 : 8 < bs.length := by omega
  have h9 : 9 < bs.length := by omega
  simp [State.readWord, readByte_of_holds h, h8, h9, frontLen]

theorem hdrDecode_len {c : Config} {bs : List Byte} {hdr : Header} (h : hdrDecode c bs = some hdr) :
    hdr.len = frontLen c bs := by
  have hl : 12 ≤ bs.length := by
    by_contra hn
    rw [hdrDecode_none_iff.mpr (by omega)] at h
    cases h
  obtain ⟨hdr', e, x, y, hx, hy, hw⟩ := hdrDecode_some (c := c) hl
  rw [h] at e
  cases e
  simp [frontLen, hx, hy, hw]

/-- The frame at the front of the bytes the block holds (R34, R109). -/
theorem frontFrame_of_holds {s : State} {bs : List Byte} {hdr : Header} (h : Holds s bs)
    (hd : hdrDecode s.cfg bs = some hdr) (hl : hdrLen + hdr.len.toNat ≤ bs.length) :
    s.frontFrame = .ok (hdr, (bs.drop hdrLen).take hdr.len.toNat) := by
  rw [hdrLen_eq] at *
  unfold State.frontFrame
  rw [readBytes_of_holds h 0 hdrLen (by rw [hdrLen_eq]; omega), hdrLen_eq]
  simp only [List.drop_zero, hdrDecode_take (show 12 ≤ bs.length by omega), hd, readBytes_of_holds h 12 _ hl]

/-- What a frame read from the buffer is (R34). -/
theorem frontFrame_ok {s : State} {hdr : Header} {payload : List Byte} (h : s.frontFrame = .ok (hdr, payload)) :
    ∃ hb, s.readBytes 0 hdrLen = .ok hb ∧ hdrDecode s.cfg hb = some hdr ∧
      s.readBytes hdrLen hdr.len.toNat = .ok payload := by
  unfold State.frontFrame at h
  split at h
  · cases h
  · rename_i hb e1
    split at h
    · cases h
    · rename_i d e2
      split at h
      · cases h
      · rename_i p e3
        cases h
        exact ⟨hb, e1, e2, e3⟩

theorem readByte_congr {s t : State} (hr : t.rcv = s.rcv) (hb : t.buf = s.buf) (a : Nat) :
    t.readByte a = s.readByte a := by simp [State.readByte, hr, hb]

theorem readBytes_congr {s t : State} (hr : t.rcv = s.rcv) (hb : t.buf = s.buf) (a n : Nat) :
    t.readBytes a n = s.readBytes a n := by
  induction n generalizing a with
  | zero => rfl
  | succ n ih => simp only [State.readBytes, readByte_congr hr hb, ih]

theorem readWord_congr {s t : State} (hc : t.cfg = s.cfg) (hr : t.rcv = s.rcv) (hb : t.buf = s.buf) (a : Nat) :
    t.readWord a = s.readWord a := by simp [State.readWord, readByte_congr hr hb, hc]

/-- The frame at the front depends on the configuration, `rcv` and the cells alone. -/
theorem frontFrame_congr {s t : State} (hc : t.cfg = s.cfg) (hr : t.rcv = s.rcv) (hb : t.buf = s.buf) :
    t.frontFrame = s.frontFrame := by
  simp only [State.frontFrame, readBytes_congr hr hb, hc, hr]

theorem Holds.congr {s t : State} {bs : List Byte} (h : Holds s bs) (hr : t.rcv = s.rcv) (hb : t.buf = s.buf) :
    Holds t bs := by
  unfold Holds
  rw [hr, hb]
  exact h

theorem holds_unique {s : State} {bs cs : List Byte} (h : Holds s bs) (h' : Holds s cs) : bs = cs := by
  apply List.ext_getElem?
  intro i
  rw [← readByte_of_holds h, ← readByte_of_holds h']

theorem holds_nil {s : State} (h : s.rcv = 0) : Holds s [] := ⟨h, fun i hi => by simp at hi⟩

/-- Where every valid cell has a value, the block holds some bytes. -/
theorem holds_of_valued {s : State} (h : ∀ a, a < s.rcv → (s.buf.read a).isSome) : ∃ bs, Holds s bs := by
  refine ⟨(List.range s.rcv).map fun a => (s.buf.read a).getD 0#8, by simp, fun i hi => ?_⟩
  have hi' : i < s.rcv := by simpa using hi
  obtain ⟨b, hb⟩ := Option.isSome_iff_exists.mp (h i hi')
  simp [hi', hb]

/-- Bytes written after those held are held after them (R104). -/
theorem holds_append {s : State} {bs data : List Byte} (h : Holds s bs) :
    Holds ((s.setBuf (s.buf.writeBytes s.rcv data)).setRcv (s.rcv + data.length)) (bs ++ data) := by
  refine ⟨by simp [h.1], fun i hi => ?_⟩
  simp only [State.setRcv_buf, State.setBuf_buf, Memory.read_writeBytes]
  have hr := h.1
  by_cases hlt : i < bs.length
  · rw [if_neg (by omega), h.2 i hlt, List.getElem?_append_left hlt]
  · rw [List.length_append] at hi
    rw [if_pos (by omega), List.getElem?_append_right (by omega), hr]

/-- The leftover written at address 0 is what is held (R112). -/
theorem holds_shift {s : State} {bs : List Byte} :
    Holds ((s.setBuf (s.buf.writeBytes 0 bs)).setRcv bs.length) bs := by
  refine ⟨rfl, fun i hi => ?_⟩
  simp only [State.setRcv_buf, State.setBuf_buf, Memory.read_writeBytes]
  rw [if_pos (by omega), Nat.sub_zero]

/-! ## SCAN -/

/-- What SCAN can do: one of its four outcomes (R105 to R109). -/
theorem scan_next {s t : State} (h : scan s = .next t) :
    (s.rcv < hdrLen ∧ t = s.log (.event (.needHeader s.rcv))) ∨
    (hdrLen ≤ s.rcv ∧ ∃ len0, s.readWord 8 = .ok len0 ∧
      ((s.cfg.maxPayload.val < len0.toNat ∧ t = (s.setRcv 0).log (.event (.oversize len0 s.rcv))) ∨
      (len0.toNat ≤ s.cfg.maxPayload.val ∧ s.rcv < hdrLen + len0.toNat ∧
        t = s.log (.event (.needPayload s.rcv (hdrLen + len0.toNat)))) ∨
      (len0.toNat ≤ s.cfg.maxPayload.val ∧ hdrLen + len0.toNat ≤ s.rcv ∧ ∃ hdr payload,
        s.frontFrame = .ok (hdr, payload) ∧
        t = ((s.setSeqIn hdr.seq).setPhase .present).log (.event (.frame hdr payload))))) := by
  unfold scan at h
  split at h
  · cases h; exact .inl ⟨‹_›, rfl⟩
  · rename_i hr
    obtain ⟨len0, hw, h⟩ := orStop_next h
    refine .inr ⟨Nat.le_of_not_lt hr, len0, hw, ?_⟩
    split at h
    · cases h; exact .inl ⟨‹_›, rfl⟩
    · rename_i hm
      split at h
      · cases h; exact .inr (.inl ⟨Nat.le_of_not_lt hm, ‹_›, rfl⟩)
      · rename_i ht
        obtain ⟨⟨hdr, payload⟩, hf, h⟩ := orStop_next h
        cases h
        exact .inr (.inr ⟨Nat.le_of_not_lt hm, Nat.le_of_not_lt ht, hdr, payload, hf, rfl⟩)

/-- SCAN on bytes the block holds: its outcome read off the bytes. -/
theorem scan_of_holds {s : State} {bs : List Byte} (h : Holds s bs) (hp : s.phase = .idle) :
    ∃ t, scan s = .next t ∧ t.buf = s.buf ∧ Scanned s t bs := by
  unfold scan Scanned
  rw [h.1]
  split
  · exact ⟨_, rfl, rfl, rfl, rfl, rfl, rfl, hp, h.congr rfl rfl, rfl, rfl⟩
  · rename_i hl
    rw [readWord_of_holds h (Nat.le_of_not_lt hl), orStop_ok]
    split
    · exact ⟨_, rfl, rfl, rfl, rfl, rfl, rfl, hp, holds_nil rfl, rfl, rfl⟩
    · split
      · exact ⟨_, rfl, rfl, rfl, rfl, rfl, rfl, hp, h.congr rfl rfl, rfl, rfl⟩
      · rename_i ht
        obtain ⟨hdr, hd, -⟩ := hdrDecode_some (c := s.cfg) (Nat.le_of_not_lt hl)
        have hlen := hdrDecode_len hd
        rw [frontFrame_of_holds h hd (by rw [hlen]; exact Nat.le_of_not_lt ht), hlen]
        exact ⟨_, rfl, rfl, rfl, rfl, rfl, rfl, rfl, h.congr rfl rfl, hdr, hd, rfl, rfl⟩

/-! ## FILL and RELEASE -/

/-- What an append that answers has done (R104). -/
theorem append_next {s t : State} {data : List Byte} (h : append data s = .next t) :
    s.rcv + data.length ≤ s.cfg.maxFrame ∧
      scan ((s.setBuf (s.buf.writeBytes s.rcv data)).setRcv (s.rcv + data.length)) = .next t := by
  obtain ⟨u, hw, h⟩ := orStop_next h
  obtain ⟨hi, rfl⟩ := State.writeBytes_ok hw
  exact ⟨hi, h⟩

/-- What FILL's own part can do: a fault of its operands, no data, or an append (R102). -/
theorem fillIdle_next {r : Int} {data : List Byte} {s t : State} (h : fillIdle r data s = .next t) :
    ((data.length : Int) ≠ max r 0 ∧ raise (.fillLength r data.length) s = .next t) ∨
    ((data.length : Int) = max r 0 ∧ r ≤ 0 ∧ t = s.log (.event (.noData r))) ∨
    ((data.length : Int) = max r 0 ∧ 0 < r ∧ (s.space : Int) < r ∧
      raise (.fillOverrun r s.space) s = .next t) ∨
    ((data.length : Int) = r ∧ 0 < r ∧ r ≤ (s.space : Int) ∧ append data s = .next t) := by
  unfold fillIdle at h
  split at h
  · exact .inl ⟨‹_›, h⟩
  · rename_i hl
    have hl := not_not.mp hl
    split at h
    · cases h; exact .inr (.inl ⟨hl, ‹_›, rfl⟩)
    · rename_i hr
      split at h
      · exact .inr (.inr (.inl ⟨hl, by omega, ‹_›, h⟩))
      · exact .inr (.inr (.inr ⟨by omega, by omega, by omega, h⟩))

/-- A delivery of `n > 0` bytes within `space` is an append. -/
theorem fillIdle_append {data : List Byte} {s : State} (h0 : data ≠ []) (h : data.length ≤ s.space) :
    fillIdle (data.length : Nat) data s = append data s := by
  have hp : 0 < data.length := List.length_pos_iff.mpr h0
  simp only [fillIdle]
  rw [if_neg (by omega), if_neg (by omega), if_neg (by omega)]

/-- An append within the buffer, on bytes the block holds. -/
theorem append_of_holds {data bs : List Byte} {s : State} (h : Holds s bs) (hp : s.phase = .idle)
    (hi : s.rcv + data.length ≤ s.cfg.maxFrame) :
    ∃ t, append data s = .next t ∧ t.buf = s.buf.writeBytes s.rcv data ∧ Scanned s t (bs ++ data) := by
  unfold append
  rw [State.writeBytes_inside hi, orStop_ok]
  exact scan_of_holds (s := (s.setBuf (s.buf.writeBytes s.rcv data)).setRcv (s.rcv + data.length))
    (holds_append h) hp

/-- What a RELEASE of a presented frame has done where it answers (R111, R112). -/
theorem releaseFrame_next {s t : State} (h : releaseFrame s = .next t) :
    ∃ len0 left, s.readWord 8 = .ok len0 ∧ hdrLen + len0.toNat ≤ s.rcv ∧
      s.readBytes (hdrLen + len0.toNat) (s.rcv - (hdrLen + len0.toNat)) = .ok left ∧
      left.length = s.rcv - (hdrLen + len0.toNat) ∧ left.length ≤ s.cfg.maxFrame ∧
      scan (((s.setBuf (s.buf.writeBytes 0 left)).setRcv (s.rcv - (hdrLen + len0.toNat))).setPhase .idle) = .next t := by
  obtain ⟨len0, hw, h⟩ := orStop_next h
  simp only at h
  split at h
  · cases h
  · rename_i hr
    obtain ⟨left, hb, h⟩ := orStop_next h
    obtain ⟨u, hu, h⟩ := orStop_next h
    obtain ⟨hi, rfl⟩ := State.writeBytes_ok hu
    exact ⟨len0, left, hw, Nat.le_of_not_lt hr, hb, (readBytes_ok hb).1, by omega, h⟩

/-- A RELEASE on bytes the block holds, with a whole frame at the front (R111, R112). -/
theorem releaseFrame_of_holds {bs : List Byte} {s : State} (h : Holds s bs) (hb : s.rcv ≤ s.cfg.maxFrame)
    (hl : hdrLen ≤ bs.length) (ht : hdrLen + (frontLen s.cfg bs).toNat ≤ bs.length) :
    ∃ t, releaseFrame s = .next t ∧
      t.buf = s.buf.writeBytes 0 (bs.drop (hdrLen + (frontLen s.cfg bs).toNat)) ∧
      Scanned s t (bs.drop (hdrLen + (frontLen s.cfg bs).toNat)) := by
  have hr := h.1
  unfold releaseFrame
  rw [readWord_of_holds h hl, orStop_ok]
  simp only
  rw [if_neg (by omega), readBytes_of_holds h _ _ (by omega), orStop_ok,
    List.take_of_length_le (by simp [hr])]
  rw [State.writeBytes_inside (by simp; omega), orStop_ok]
  have hs := holds_shift (s := s) (bs := bs.drop (hdrLen + (frontLen s.cfg bs).toNat))
  rw [List.length_drop, ← hr] at hs
  exact scan_of_holds (s := ((s.setBuf (s.buf.writeBytes 0 (bs.drop (hdrLen + (frontLen s.cfg bs).toNat)))).setRcv
    (s.rcv - (hdrLen + (frontLen s.cfg bs).toNat))).setPhase .idle) (hs.congr rfl rfl) rfl

/-! ## The Transport's delivery -/

@[simp] theorem State.putBack_cfg (s : State) (v : List Byte) : (s.putBack v).cfg = s.cfg := by unfold State.putBack; split <;> rfl
@[simp] theorem State.putBack_phase (s : State) (v : List Byte) : (s.putBack v).phase = s.phase := by unfold State.putBack; split <;> rfl
@[simp] theorem State.putBack_rcv (s : State) (v : List Byte) : (s.putBack v).rcv = s.rcv := by unfold State.putBack; split <;> rfl
@[simp] theorem State.putBack_buf (s : State) (v : List Byte) : (s.putBack v).buf = s.buf := by unfold State.putBack; split <;> rfl
@[simp] theorem State.putBack_seqIn (s : State) (v : List Byte) : (s.putBack v).seqIn = s.seqIn := by unfold State.putBack; split <;> rfl
@[simp] theorem State.putBack_seqOut (s : State) (v : List Byte) : (s.putBack v).seqOut = s.seqOut := by unfold State.putBack; split <;> rfl
@[simp] theorem State.putBack_fault (s : State) (v : List Byte) : (s.putBack v).fault = s.fault := by unfold State.putBack; split <;> rfl
@[simp] theorem State.putBack_trace (s : State) (v : List Byte) : (s.putBack v).trace = s.trace := by unfold State.putBack; split <;> rfl
@[simp] theorem State.putBack_space (s : State) (v : List Byte) : (s.putBack v).space = s.space := by
  simp [State.space]

/-- What a delivery can do: F_UNINIT, hold, or a FILL within `space` (R101, R150). -/
theorem receive_next {octets : List Byte} {s t : State} (h : receive octets s = .next t) :
    s.fault = none ∧
    ((s.phase = .uninit ∧ raise (.uninit 0b0010#4) s = .next t) ∨
     (s.phase = .present ∧ t = s) ∨
     (s.phase = .idle ∧ octets.take s.space = [] ∧ t = (s.putBack (octets.drop s.space)).log (.event (.noData 0))) ∨
     (s.phase = .idle ∧ octets.take s.space ≠ [] ∧
       append (octets.take s.space) (s.putBack (octets.drop s.space)) = .next t)) := by
  obtain ⟨hf, h | ⟨hp, h⟩⟩ := whenInitialised_next h
  · exact ⟨hf, .inl h⟩
  · refine ⟨hf, .inr ?_⟩
    rcases unlessPresent_next h with h | ⟨hq, h⟩
    · exact .inl h
    · have hi : s.phase = .idle := by cases e : s.phase <;> simp_all
      by_cases hz : octets.take s.space = []
      · rw [hz] at h
        refine .inr (.inl ⟨hi, hz, ?_⟩)
        simp [fillIdle, emit] at h
        exact h.symm
      · rw [fillIdle_append hz (by simp)] at h
        exact .inr (.inr ⟨hi, hz, h⟩)

/-! ## The fetch -/

/-- An input that is not held and stands first is taken. -/
theorem firstReady_head {s : State} {x : Input} (h : isHeld s x = false) (rest : List Input) :
    firstReady s (x :: rest) = some (x, rest) := by simp [firstReady, h]

/-- A held input stays offered, and what stands behind it may be taken (R146). -/
theorem firstReady_held {s : State} {x y : Input} {rest left : List Input} (h : isHeld s x = true)
    (hr : firstReady s rest = some (y, left)) : firstReady s (x :: rest) = some (y, x :: left) := by
  simp [firstReady, h, hr]

/-- What is taken was offered and is not held. -/
theorem firstReady_some {s : State} {xs left : List Input} {y : Input} (h : firstReady s xs = some (y, left)) :
    isHeld s y = false ∧ xs.Perm (y :: left) := by
  induction xs generalizing y left with
  | nil => cases h
  | cons x xs ih =>
    simp only [firstReady] at h
    split at h
    · split at h
      · cases h
      · rename_i z l hz
        cases h
        obtain ⟨h1, h2⟩ := ih hz
        exact ⟨h1, (h2.cons x).trans (List.Perm.swap ..)⟩
    · rename_i hx
      cases h
      exact ⟨by simpa using hx, List.Perm.refl _⟩

/-- What a step does, case by case: nothing, or the instruction of the input it takes. -/
theorem step_next {s t : State} (h : step s = .next t) :
    (fetch s = .nothing ∧ t = s) ∨
    (∃ i u, fetch s = .instr i u ∧ exec i u = .next t) ∨
    (∃ code u, fetch s = .reserved code u ∧ illegalCommand code u = .next t) := by
  unfold step at h
  split at h
  · cases h; exact .inl ⟨‹_›, rfl⟩
  · exact .inr (.inl ⟨_, _, ‹_›, h⟩)
  · exact .inr (.inr ⟨_, _, ‹_›, h⟩)

/-- The state an input is run in differs from the state it was taken from only in what is offered. -/
theorem fetch_state {s u : State} (h : (∃ i, fetch s = .instr i u) ∨ ∃ code, fetch s = .reserved code u) :
    ∃ left, u = s.setInputs left := by
  have key : ∀ (x : Input) (v : State), ((∃ i, takeInput x v = .instr i u) ∨ ∃ code, takeInput x v = .reserved code u) →
      u = v ∨ ∃ rest, u = v.putBack rest := by
    intro x v hv
    unfold takeInput at hv
    split at hv
    · rcases hv with ⟨i, hv⟩ | ⟨c, hv⟩ <;> cases hv
      exact .inl rfl
    · rcases hv with ⟨i, hv⟩ | ⟨c, hv⟩ <;> cases hv
      exact .inl rfl
    · split at hv
      · rcases hv with ⟨i, hv⟩ | ⟨c, hv⟩ <;> cases hv
        exact .inl rfl
      · rcases hv with ⟨i, hv⟩ | ⟨c, hv⟩ <;> cases hv
        exact .inr ⟨_, rfl⟩
  unfold fetch at h
  split at h
  · rcases h with ⟨i, h⟩ | ⟨c, h⟩ <;> cases h
  · rename_i x left hx
    rcases key _ _ h with rfl | ⟨rest, rfl⟩
    · exact ⟨left, rfl⟩
    · unfold State.putBack
      split
      · exact ⟨left, rfl⟩
      · exact ⟨_, rfl⟩

end Sys2Proof.Machine
end

