-- ==== Sys2Proof/Laws/Exec.lean ====
section
/-! SUPPORT. Every instruction but INIT is its own effect behind the common checks, and the sixteen frame rows are one delivery each: the lemmas a proof over all instructions starts from. -/

namespace Sys2Proof.Machine

/-- A frame row's own effect, behind the common checks: hold, or a FILL within `space`. -/
def deliver (kind : BitVec 4) (d : BitVec 12) (b : FrameBody) (s : State) : Out :=
  unlessPresent s fun s =>
    let octets := frameOctets s.cfg.wireOrder kind d b
    fillIdle ((octets.take s.space).length : Nat) (octets.take s.space) (s.putBack (octets.drop s.space))

/-- What an instruction does once the common checks of R127 have passed (INIT has only the first). -/
def ownEffect : Instr → State → Out
  | .init => fun s => emit .init (((((s.setPhase .idle).setRcv 0).setBuf []).setSeqIn 0#16).setSeqOut 0#16)
  | .fill r data => fun s => unlessPresent s (fillIdle r data)
  | .release => fun s => if s.phase = .present then releaseFrame s else raise .releaseIdle s
  | .decode h => fun s => withHeader h s fun hdr => emit (.decoded hdr) s
  | .encode type op dev reg pos len seq => fun s =>
    withEncoded type op dev reg pos len seq s fun bytes => emit (.encoded bytes) s
  | .seqNext => fun s => emit (.seq (s.seqOut + 1#16)) (s.setSeqOut (s.seqOut + 1#16))
  | .t0Sync d b => deliver 0b0000#4 d b
  | .t0Read d b => deliver 0b0001#4 d b
  | .t0Write d b => deliver 0b0010#4 d b
  | .t0Change d b => deliver 0b0011#4 d b
  | .reqSync d b => deliver 0b0100#4 d b
  | .reqRead d b => deliver 0b0101#4 d b
  | .reqWrite d b => deliver 0b0110#4 d b
  | .reqChange d b => deliver 0b0111#4 d b
  | .ackSync d b => deliver 0b1000#4 d b
  | .ackRead d b => deliver 0b1001#4 d b
  | .ackWrite d b => deliver 0b1010#4 d b
  | .ackChange d b => deliver 0b1011#4 d b
  | .errSync d b => deliver 0b1100#4 d b
  | .errRead d b => deliver 0b1101#4 d b
  | .errWrite d b => deliver 0b1110#4 d b
  | .errChange d b => deliver 0b1111#4 d b

theorem exec_init (s : State) : exec .init s = unlessFaulted s (ownEffect .init) := rfl

/-- Every instruction but INIT is its own effect behind checks 1 and 3 of R127. -/
theorem exec_checked {i : Instr} (hi : i ≠ .init) (s : State) : exec i s = whenInitialised i.code s (ownEffect i) := by
  cases i <;> first | exact absurd rfl hi | skip
  case fill | release | decode | encode | seqNext => rfl
  all_goals
    rename_i d b
    simp only [exec, execT0Sync, execT0Read, execT0Write, execT0Change, execReqSync, execReqRead, execReqWrite, execReqChange, execAckSync, execAckRead, execAckWrite, execAckChange, execErrSync, execErrRead, execErrWrite, execErrChange,
      receiveFrame, receive, Instr.code, ownEffect]
    unfold whenInitialised unlessFaulted
    cases s.fault <;> rfl

/-- An instruction in an unfaulted, initialised block is its own effect. -/
theorem exec_ready {i : Instr} {s : State} (hf : s.fault = none) (hp : s.phase ≠ .uninit) :
    exec i s = ownEffect i s := by
  by_cases hi : i = .init
  · subst hi; rw [exec_init]; exact unlessFaulted_none hf _
  · rw [exec_checked hi]; exact whenInitialised_ready hf hp _

/-- In a faulted block no instruction has a step (R123). -/
theorem exec_faulted {i : Instr} {s : State} {c : FaultCode} (hf : s.fault = some c) :
    exec i s = .fault (.quiescent c) := by
  by_cases hi : i = .init
  · subst hi; rw [exec_init]; exact unlessFaulted_some hf _
  · rw [exec_checked hi]; exact unlessFaulted_some hf _

/-- What an instruction that answers has done: INIT, F_UNINIT, or its own effect. -/
theorem exec_next {i : Instr} {s t : State} (h : exec i s = .next t) :
    s.fault = none ∧
    ((i = .init ∧ ownEffect .init s = .next t) ∨
     (i ≠ .init ∧ s.phase = .uninit ∧ raise (.uninit i.code) s = .next t) ∨
     (i ≠ .init ∧ s.phase ≠ .uninit ∧ ownEffect i s = .next t)) := by
  by_cases hi : i = .init
  · subst hi
    rw [exec_init] at h
    obtain ⟨hf, h⟩ := unlessFaulted_next h
    exact ⟨hf, .inl ⟨rfl, h⟩⟩
  · rw [exec_checked hi] at h
    obtain ⟨hf, h | h⟩ := whenInitialised_next h
    · exact ⟨hf, .inr (.inl ⟨hi, h⟩)⟩
    · exact ⟨hf, .inr (.inr ⟨hi, h⟩)⟩

/-- A frame row's encoding, well-formedness, code and effect. -/
theorem frameRow_spec {i : Instr} {kind : BitVec 4} {d : BitVec 12} {b : FrameBody}
    (h : (i, kind) ∈ frameRows d b) (c : Config) :
    encode c i = .stream (frameOctets c.wireOrder kind d b) ∧ i.wf = b.wf ∧ i.code = 0b0010#4 ∧
      i ≠ .init ∧ ownEffect i = deliver kind d b := by
  simp only [frameRows, List.mem_cons, Prod.mk.injEq, List.not_mem_nil, or_false] at h
  rcases h with h | h | h | h | h | h | h | h | h | h | h | h | h | h | h | h <;>
    obtain ⟨rfl, rfl⟩ := h <;> exact ⟨rfl, rfl, rfl, by simp, rfl⟩

/-- The row an opdev word selects is the row of its bits 15 to 12 (R66). -/
theorem frameOfOpdev_row (w : Word) (body : FrameBody) :
    (frameOfOpdev w body, w.extractLsb' 12 4) ∈ frameRows (opdevDevice w) body := by
  have e : w.extractLsb' 12 4 = BitVec.ofNat 4 (8 * (w.getLsbD 15).toNat + 4 * (w.getLsbD 14).toNat +
      2 * (w.getLsbD 13).toNat + (w.getLsbD 12).toNat) := by
    apply BitVec.eq_of_getLsbD_eq
    intro i hi
    rw [BitVec.getLsbD_extractLsb']
    interval_cases i <;> cases h15 : w.getLsbD 15 <;> cases h14 : w.getLsbD 14 <;>
      cases h13 : w.getLsbD 13 <;> cases h12 : w.getLsbD 12 <;> simp_all
  rw [e]
  unfold frameOfOpdev
  cases w.getLsbD 15 <;> cases w.getLsbD 14 <;> cases w.getLsbD 13 <;> cases w.getLsbD 12 <;> simp [frameRows]

/-! ## Everything an instruction can do -/

/-- The state a raised fault leaves (R123, R129). -/
abbrev State.raised (s : State) (f : FaultRecord) : State := (s.setFault f.code).log (.fault f)

/-- The octets of a frame row as the Transport holds them. -/
abbrev rowOctets (s : State) (kind : BitVec 4) (d : BitVec 12) (b : FrameBody) : List Byte :=
  frameOctets s.cfg.wireOrder kind d b

/-- Everything an instruction can do where it answers a next state, one constructor per outcome. -/
inductive Answers (s : State) : Instr → State → Prop where
  | init : Answers s .init
      ((((((s.setPhase .idle).setRcv 0).setBuf []).setSeqIn 0#16).setSeqOut 0#16).log (.event .init))
  | beforeInit (i : Instr) (hi : i ≠ .init) (hp : s.phase = .uninit) : Answers s i (s.raised (.uninit i.code))
  | held (i : Instr) (hc : i.code = 0b0010#4) (hp : s.phase = .present) : Answers s i s
  | fillLength (r : Int) (data : List Byte) (hp : s.phase = .idle) (hl : (data.length : Int) ≠ max r 0) :
      Answers s (.fill r data) (s.raised (.fillLength r data.length))
  | noData (r : Int) (data : List Byte) (hp : s.phase = .idle) (hl : (data.length : Int) = max r 0) (hr : r ≤ 0) :
      Answers s (.fill r data) (s.log (.event (.noData r)))
  | fillOverrun (r : Int) (data : List Byte) (hp : s.phase = .idle) (hl : (data.length : Int) = max r 0)
      (hr : (s.space : Int) < r) : Answers s (.fill r data) (s.raised (.fillOverrun r s.space))
  | fill (r : Int) (data : List Byte) (t : State) (hp : s.phase = .idle) (hl : (data.length : Int) = r) (hr : 0 < r)
      (hs : r ≤ (s.space : Int)) (h : append data s = .next t) : Answers s (.fill r data) t
  | rowNoData (i : Instr) (kind : BitVec 4) (d : BitVec 12) (b : FrameBody) (hrow : (i, kind) ∈ frameRows d b)
      (hp : s.phase = .idle) (hs : (rowOctets s kind d b).take s.space = []) :
      Answers s i ((s.putBack ((rowOctets s kind d b).drop s.space)).log (.event (.noData 0)))
  | row (i : Instr) (kind : BitVec 4) (d : BitVec 12) (b : FrameBody) (t : State) (hrow : (i, kind) ∈ frameRows d b)
      (hp : s.phase = .idle) (hs : (rowOctets s kind d b).take s.space ≠ [])
      (h : append ((rowOctets s kind d b).take s.space) (s.putBack ((rowOctets s kind d b).drop s.space)) = .next t) :
      Answers s i t
  | releaseIdle (hp : s.phase = .idle) : Answers s .release (s.raised .releaseIdle)
  | release (t : State) (hp : s.phase = .present) (h : releaseFrame s = .next t) : Answers s .release t
  | shortHeader (h : List Byte) (hp : s.phase ≠ .uninit) (hl : h.length < hdrLen) :
      Answers s (.decode h) (s.raised (.shortHeader h.length))
  | decoded (h : List Byte) (hdr : Header) (hp : s.phase ≠ .uninit) (hd : hdrDecode s.cfg h = some hdr) :
      Answers s (.decode h) (s.log (.event (.decoded hdr)))
  | encodeOversize (type op dev reg pos len seq : Word) (hp : s.phase ≠ .uninit)
      (hl : s.cfg.maxPayload.val < len.toNat) :
      Answers s (.encode type op dev reg pos len seq) (s.raised (.encodeOversize len))
  | encoded (type op dev reg pos len seq : Word) (hp : s.phase ≠ .uninit) (hl : len.toNat ≤ s.cfg.maxPayload.val) :
      Answers s (.encode type op dev reg pos len seq)
        (s.log (.event (.encoded (hdrEncode s.cfg.wireOrder type op dev reg pos len seq))))
  | seqNext (hp : s.phase ≠ .uninit) : Answers s .seqNext ((s.setSeqOut (s.seqOut + 1#16)).log (.event (.seq (s.seqOut + 1#16))))

theorem deliver_answers {i : Instr} {kind : BitVec 4} {d : BitVec 12} {b : FrameBody} {s t : State}
    (hrow : (i, kind) ∈ frameRows d b) (hp : s.phase ≠ .uninit) (h : deliver kind d b s = .next t) :
    Answers s i t := by
  obtain ⟨-, -, hc, -, -⟩ := frameRow_spec hrow s.cfg
  rcases unlessPresent_next h with ⟨h1, rfl⟩ | ⟨h1, h2⟩
  · exact .held i hc h1
  · have hi : s.phase = .idle := by cases e : s.phase <;> simp_all
    simp only at h2
    by_cases hz : (frameOctets s.cfg.wireOrder kind d b).take s.space = []
    · rw [hz] at h2
      simp only [List.length_nil, Nat.cast_zero, fillIdle, max_self, ne_eq, not_true_eq_false, if_false, le_refl,
        if_true] at h2
      cases h2
      exact .rowNoData i kind d b hrow hi hz
    · rw [fillIdle_append hz (by simp)] at h2
      exact .row i kind d b t hrow hi hz h2

/-- What exec answers is one of these outcomes, and only in an unfaulted block. -/
theorem exec_answers {i : Instr} {s t : State} (h : exec i s = .next t) : s.fault = none ∧ Answers s i t := by
  have key := exec_next h
  clear h
  obtain ⟨hf, ⟨rfl, h⟩ | ⟨hi, hp, h⟩ | ⟨hi, hp, h⟩⟩ := key
  · cases h; exact ⟨hf, .init⟩
  · cases h; exact ⟨hf, .beforeInit i hi hp⟩
  · refine ⟨hf, ?_⟩
    have hidle : s.phase ≠ .present → s.phase = .idle := by cases e : s.phase <;> simp_all
    cases i
    case init => exact absurd rfl hi
    case fill r data =>
      rcases unlessPresent_next h with ⟨h1, rfl⟩ | ⟨h1, h2⟩
      · exact .held _ rfl h1
      · rcases fillIdle_next h2 with ⟨h3, h4⟩ | ⟨h3, h4, rfl⟩ | ⟨h3, -, h4, h5⟩ | ⟨h3, h4, h5, h6⟩
        · cases h4; exact .fillLength r data (hidle h1) h3
        · exact .noData r data (hidle h1) h3 h4
        · cases h5; exact .fillOverrun r data (hidle h1) h3 h4
        · exact .fill r data t (hidle h1) h3 h4 h5 h6
    case release =>
      simp only [ownEffect] at h
      split at h
      · exact .release t ‹_› h
      · cases h; exact .releaseIdle (hidle ‹_›)
    case decode hh =>
      simp only [ownEffect, withHeader] at h
      split at h
      · rename_i e; cases h; exact .shortHeader hh hp (hdrDecode_none_iff.mp e)
      · rename_i e; cases h; exact .decoded hh _ hp e
    case encode type op dev reg pos len seq =>
      simp only [ownEffect, withEncoded] at h
      split at h
      · cases h; exact .encodeOversize type op dev reg pos len seq hp ‹_›
      · cases h; exact .encoded type op dev reg pos len seq hp (Nat.le_of_not_lt ‹_›)
    case seqNext => cases h; exact .seqNext hp
    all_goals
      rename_i d b
      exact deliver_answers (d := d) (b := b) (by simp [frameRows]) hp h

/-- What SCAN leaves unchanged, whatever its outcome. -/
theorem scan_frame {s t : State} (h : scan s = .next t) :
    t.cfg = s.cfg ∧ t.seqOut = s.seqOut ∧ t.inputs = s.inputs ∧ t.fault = s.fault ∧ t.buf = s.buf ∧
      (t.rcv = s.rcv ∨ t.rcv = 0) ∧ ((t.phase = s.phase ∧ t.seqIn = s.seqIn) ∨ t.phase = .present) := by
  rcases scan_next h with ⟨-, rfl⟩ | ⟨-, l, -, ⟨-, rfl⟩ | ⟨-, -, rfl⟩ | ⟨-, -, hdr, p, -, rfl⟩⟩ <;> simp

/-- What an append leaves unchanged: every cell outside the appended bytes, and what SCAN leaves unchanged. -/
theorem append_frame {s t : State} {data : List Byte} (h : append data s = .next t) :
    t.cfg = s.cfg ∧ t.seqOut = s.seqOut ∧ t.inputs = s.inputs ∧ t.fault = s.fault ∧
      t.buf = s.buf.writeBytes s.rcv data ∧ (t.rcv = s.rcv + data.length ∨ t.rcv = 0) ∧
      ((t.phase = s.phase ∧ t.seqIn = s.seqIn) ∨ t.phase = .present) :=
  scan_frame (append_next h).2

end Sys2Proof.Machine
end

