-- ==== Sys2Proof/Laws/PerInstr.lean ====
section
/-! SUPPORT. A family of facts about every instruction as syntax, one lemma per constructor: the encoder puts the fixed bits of the instruction's row of spec/opcode_table.json where the table says. -/

namespace Sys2Proof.Laws

/-- The row of the opcode table: a command or a frame row, and the value of its fixed bits. -/
def FixedBits.row : Instr → Bool × BitVec 4
  | .init => (true, 0b0001#4)
  | .fill _ _ => (true, 0b0010#4)
  | .release => (true, 0b0011#4)
  | .decode _ => (true, 0b0100#4)
  | .encode _ _ _ _ _ _ _ => (true, 0b0101#4)
  | .seqNext => (true, 0b0110#4)
  | .t0Sync _ _ => (false, 0b0000#4)
  | .t0Read _ _ => (false, 0b0001#4)
  | .t0Write _ _ => (false, 0b0010#4)
  | .t0Change _ _ => (false, 0b0011#4)
  | .reqSync _ _ => (false, 0b0100#4)
  | .reqRead _ _ => (false, 0b0101#4)
  | .reqWrite _ _ => (false, 0b0110#4)
  | .reqChange _ _ => (false, 0b0111#4)
  | .ackSync _ _ => (false, 0b1000#4)
  | .ackRead _ _ => (false, 0b1001#4)
  | .ackWrite _ _ => (false, 0b1010#4)
  | .ackChange _ _ => (false, 0b1011#4)
  | .errSync _ _ => (false, 0b1100#4)
  | .errRead _ _ => (false, 0b1101#4)
  | .errWrite _ _ => (false, 0b1110#4)
  | .errChange _ _ => (false, 0b1111#4)

/-- The fixed bits of an encoded input: `cmd[3:0]`, or bits 15 to 12 of the frame's first word. -/
def FixedBits.ofInput (c : Config) : Input → Option (Bool × BitVec 4)
  | .command p => some (true, p.code)
  | .stream (h0 :: h1 :: _) => some (false, (word16 c.wireOrder h0 h1).extractLsb' 12 4)
  | .stream _ => none

/-- An instruction's encoding carries the fixed bits of its table row, in either byte order. -/
def FixedBits.Statement (i : Instr) : Prop :=
  ∀ c : Config, FixedBits.ofInput c (encode c i) = some (FixedBits.row i)

/-- The first word of a frame's octets has the frame's kind in bits 15 to 12 (R61). -/
theorem FixedBits.frame (c : Config) (kind : BitVec 4) (device : BitVec 12) (body : FrameBody) :
    FixedBits.ofInput c (.stream (frameOctets c.wireOrder kind device body)) = some (false, kind) := by
  obtain ⟨h0, h1, h2, h3, h4, h5, h6, h7, h8, h9, h10, h11, e, j0, -⟩ :=
    headerOctets_split c.wireOrder (kind ++ device) body.seq body.reg body.pos body.len body.crc16
  have hk : (kind ++ device : Word).extractLsb' 12 4 = kind := by
    apply BitVec.eq_of_getLsbD_eq
    intro i hi
    simp only [BitVec.getLsbD_extractLsb', getLsbD_join, hi, decide_true, Bool.true_and,
      if_neg (by omega : ¬ 12 + i < 12), show 12 + i - 12 = i by omega]
  simp only [frameOctets, e, List.cons_append, FixedBits.ofInput, j0, hk]

theorem FixedBits.init : FixedBits.Statement .init := fun _ => rfl
theorem FixedBits.fill (r : Int) (data : List Byte) : FixedBits.Statement (.fill r data) := fun _ => rfl
theorem FixedBits.release : FixedBits.Statement .release := fun _ => rfl
theorem FixedBits.decode (h : List Byte) : FixedBits.Statement (.decode h) := fun _ => rfl
theorem FixedBits.encode (type op dev reg pos len seq : Word) :
    FixedBits.Statement (.encode type op dev reg pos len seq) := fun _ => rfl
theorem FixedBits.seqNext : FixedBits.Statement .seqNext := fun _ => rfl
theorem FixedBits.t0Sync (device : BitVec 12) (body : FrameBody) : FixedBits.Statement (.t0Sync device body) :=
  fun _ => FixedBits.frame _ _ _ _
theorem FixedBits.t0Read (device : BitVec 12) (body : FrameBody) : FixedBits.Statement (.t0Read device body) :=
  fun _ => FixedBits.frame _ _ _ _
theorem FixedBits.t0Write (device : BitVec 12) (body : FrameBody) : FixedBits.Statement (.t0Write device body) :=
  fun _ => FixedBits.frame _ _ _ _
theorem FixedBits.t0Change (device : BitVec 12) (body : FrameBody) : FixedBits.Statement (.t0Change device body) :=
  fun _ => FixedBits.frame _ _ _ _
theorem FixedBits.reqSync (device : BitVec 12) (body : FrameBody) : FixedBits.Statement (.reqSync device body) :=
  fun _ => FixedBits.frame _ _ _ _
theorem FixedBits.reqRead (device : BitVec 12) (body : FrameBody) : FixedBits.Statement (.reqRead device body) :=
  fun _ => FixedBits.frame _ _ _ _
theorem FixedBits.reqWrite (device : BitVec 12) (body : FrameBody) : FixedBits.Statement (.reqWrite device body) :=
  fun _ => FixedBits.frame _ _ _ _
theorem FixedBits.reqChange (device : BitVec 12) (body : FrameBody) : FixedBits.Statement (.reqChange device body) :=
  fun _ => FixedBits.frame _ _ _ _
theorem FixedBits.ackSync (device : BitVec 12) (body : FrameBody) : FixedBits.Statement (.ackSync device body) :=
  fun _ => FixedBits.frame _ _ _ _
theorem FixedBits.ackRead (device : BitVec 12) (body : FrameBody) : FixedBits.Statement (.ackRead device body) :=
  fun _ => FixedBits.frame _ _ _ _
theorem FixedBits.ackWrite (device : BitVec 12) (body : FrameBody) : FixedBits.Statement (.ackWrite device body) :=
  fun _ => FixedBits.frame _ _ _ _
theorem FixedBits.ackChange (device : BitVec 12) (body : FrameBody) : FixedBits.Statement (.ackChange device body) :=
  fun _ => FixedBits.frame _ _ _ _
theorem FixedBits.errSync (device : BitVec 12) (body : FrameBody) : FixedBits.Statement (.errSync device body) :=
  fun _ => FixedBits.frame _ _ _ _
theorem FixedBits.errRead (device : BitVec 12) (body : FrameBody) : FixedBits.Statement (.errRead device body) :=
  fun _ => FixedBits.frame _ _ _ _
theorem FixedBits.errWrite (device : BitVec 12) (body : FrameBody) : FixedBits.Statement (.errWrite device body) :=
  fun _ => FixedBits.frame _ _ _ _
theorem FixedBits.errChange (device : BitVec 12) (body : FrameBody) : FixedBits.Statement (.errChange device body) :=
  fun _ => FixedBits.frame _ _ _ _

end Sys2Proof.Laws
end

