-- ==== Sys2Proof/Tests/Slice0.lean ====
section
/-! SUPPORT. Tests against spec/95_test_vectors.md (each names its vector) and words written out from spec/30_encoding.md, and for each statement with hypotheses a witness that meets them, at the bounds of its clauses. -/

namespace Sys2Proof.Tests

open Sys2Proof Sys2Proof.Machine

/-! ## States to start from -/

/-- IDLE after INIT in the reference configuration, `rcv = 0`. -/
def idle : State := (State.powerUp Config.reference).setPhase .idle

/-- IDLE with these bytes held. -/
def holding (bytes : List Byte) : State := (idle.setBuf (Memory.writeBytes [] 0 bytes)).setRcv bytes.length

/-- X2: the request `01 50 2A 00 05 00 00 00 00 00 00 00`. -/
def readRequest : List Byte :=
  [0x01#8, 0x50#8, 0x2A#8, 0x00#8, 0x05#8, 0x00#8, 0x00#8, 0x00#8, 0x00#8, 0x00#8, 0x00#8, 0x00#8]

/-- X2, P1: what the request decodes to. -/
def readRequestHeader : Header :=
  { type := 1, op := 1, device := 1, seq := 42, reg := 5, pos := 0, len := 0, crc16 := 0, typeOk := true, lenOk := true }

/-- The header of 95_test_vectors.md 2.4 with a given `len`: H2 for 2, H64 for 64, the oversize header for 65. -/
def writeHeader (len : Byte) : List Byte :=
  [0x01#8, 0x60#8, 0x03#8, 0x00#8, 0x09#8, 0x00#8, 0x00#8, 0x00#8, len, 0x00#8, 0x00#8, 0x00#8]

/-- X3: what the H2 header decodes to. -/
def writeRequestHeader : Header :=
  { type := 1, op := 2, device := 1, seq := 3, reg := 9, pos := 0, len := 2, crc16 := 0, typeOk := true, lenOk := true }

/-- PRESENT with the request of X2 at the front and these bytes behind it. -/
def presenting (leftover : List Byte) : State :=
  (((holding (readRequest ++ leftover)).setPhase .present).setSeqIn 42#16).log (.event (.frame readRequestHeader []))

/-- Idle, with a fault recorded. -/
def faulted : State := idle.setFault .releaseIdle

/-- The next state of an outcome. -/
def nextState (o : Out) : Option State :=
  match o with
  | .next t => some t
  | _ => none

/-- The fault an outcome stops with. -/
def stopOf (o : Out) : Option Fault :=
  match o with
  | .fault f => some f
  | _ => none

/-- The block after an outcome that is a next state, and the start state otherwise. -/
def after (o : Out) : State :=
  match o with
  | .next t => t
  | _ => State.reset

/-! ## WellFormed refuses an ill-formed term of each check -/

/-- R71: `|data| = max(r, 0)`. -/
theorem test_wf_fill : Instr.wf (.fill 3 [0x01#8, 0x50#8]) = false ∧ Instr.wf (.fill (-1) [0x00#8]) = false ∧
    Instr.wf (.fill (-1) []) = true ∧ Instr.wf (.fill 2 [0x01#8, 0x50#8]) = true := by decide

/-- R71: `|h| ≥ 12`. -/
theorem test_wf_decode : Instr.wf (.decode (readRequest.take 11)) = false ∧ Instr.wf (.decode readRequest) = true := by decide

/-- R60: a frame has exactly `len` payload octets; each of the sixteen rows. -/
theorem test_wf_frame :
    (∀ x ∈ frameRows 1#12 { seq := 3, reg := 9, pos := 0, len := 2, crc16 := 0, payload := [0xAA#8] }, x.1.wf = false) ∧
    ∀ x ∈ frameRows 1#12 { seq := 3, reg := 9, pos := 0, len := 1, crc16 := 0, payload := [0xAA#8] }, x.1.wf = true := by
  decide

/-! ## Decoding: a written-out word for every constructor -/

/-- R70: INIT is `cmd = 0001`. -/
theorem test_decode_init :
    decodeInput Config.reference (.command { code := 0b0001#4 }) = .ok (.init) := by decide

/-- R70: FILL is `cmd = 0010`. -/
theorem test_decode_fill :
    decodeInput Config.reference (.command { code := 0b0010#4, r := 2, bytes := [0xAA#8, 0xBB#8] }) = .ok (.fill 2 [0xAA#8, 0xBB#8]) := by decide

/-- R70: RELEASE is `cmd = 0011`. -/
theorem test_decode_release :
    decodeInput Config.reference (.command { code := 0b0011#4 }) = .ok (.release) := by decide

/-- R70: DECODE is `cmd = 0100`. -/
theorem test_decode_decode :
    decodeInput Config.reference (.command { code := 0b0100#4, bytes := [0x12#8] }) = .ok (.decode [0x12#8]) := by decide

/-- R70: ENCODE is `cmd = 0101`. -/
theorem test_decode_encode :
    decodeInput Config.reference (.command { code := 0b0101#4, type := 1, op := 2, dev := 3, reg := 4, pos := 5, len := 6, seq := 7 }) = .ok (.encode 1 2 3 4 5 6 7) := by decide

/-- R70: SEQ_NEXT is `cmd = 0110`. -/
theorem test_decode_seqNext :
    decodeInput Config.reference (.command { code := 0b0110#4 }) = .ok (.seqNext) := by decide

/-- R61, R66: T0.SYNC has `opdev[15:12] = 0000`; device 0x2C0, low byte first (R10). -/
theorem test_decode_t0Sync :
    decodeInput Config.reference (.stream [0xC0#8, 0x02#8, 0x34#8, 0x12#8, 0x05#8, 0x80#8, 0x06#8, 0x01#8, 0x01#8, 0x00#8,
      0xEF#8, 0xBE#8, 0x7F#8])
    = .ok (.t0Sync 0x2C0#12 { seq := 0x1234, reg := 0x8005, pos := 0x0106, len := 1, crc16 := 0xBEEF, payload := [0x7F#8] }) := by
  decide

/-- R61, R66: T0.READ has `opdev[15:12] = 0001`; device 0x2C1, low byte first (R10). -/
theorem test_decode_t0Read :
    decodeInput Config.reference (.stream [0xC1#8, 0x12#8, 0x34#8, 0x12#8, 0x05#8, 0x80#8, 0x06#8, 0x01#8, 0x01#8, 0x00#8,
      0xEF#8, 0xBE#8, 0x7F#8])
    = .ok (.t0Read 0x2C1#12 { seq := 0x1234, reg := 0x8005, pos := 0x0106, len := 1, crc16 := 0xBEEF, payload := [0x7F#8] }) := by
  decide

/-- R61, R66: T0.WRITE has `opdev[15:12] = 0010`; device 0x2C2, low byte first (R10). -/
theorem test_decode_t0Write :
    decodeInput Config.reference (.stream [0xC2#8, 0x22#8, 0x34#8, 0x12#8, 0x05#8, 0x80#8, 0x06#8, 0x01#8, 0x01#8, 0x00#8,
      0xEF#8, 0xBE#8, 0x7F#8])
    = .ok (.t0Write 0x2C2#12 { seq := 0x1234, reg := 0x8005, pos := 0x0106, len := 1, crc16 := 0xBEEF, payload := [0x7F#8] }) := by
  decide

/-- R61, R66: T0.CHANGE has `opdev[15:12] = 0011`; device 0x2C3, low byte first (R10). -/
theorem test_decode_t0Change :
    decodeInput Config.reference (.stream [0xC3#8, 0x32#8, 0x34#8, 0x12#8, 0x05#8, 0x80#8, 0x06#8, 0x01#8, 0x01#8, 0x00#8,
      0xEF#8, 0xBE#8, 0x7F#8])
    = .ok (.t0Change 0x2C3#12 { seq := 0x1234, reg := 0x8005, pos := 0x0106, len := 1, crc16 := 0xBEEF, payload := [0x7F#8] }) := by
  decide

/-- R61, R66: REQ.SYNC has `opdev[15:12] = 0100`; device 0x2C4, low byte first (R10). -/
theorem test_decode_reqSync :
    decodeInput Config.reference (.stream [0xC4#8, 0x42#8, 0x34#8, 0x12#8, 0x05#8, 0x80#8, 0x06#8, 0x01#8, 0x01#8, 0x00#8,
      0xEF#8, 0xBE#8, 0x7F#8])
    = .ok (.reqSync 0x2C4#12 { seq := 0x1234, reg := 0x8005, pos := 0x0106, len := 1, crc16 := 0xBEEF, payload := [0x7F#8] }) := by
  decide

/-- R61, R66: REQ.READ has `opdev[15:12] = 0101`; device 0x2C5, low byte first (R10). -/
theorem test_decode_reqRead :
    decodeInput Config.reference (.stream [0xC5#8, 0x52#8, 0x34#8, 0x12#8, 0x05#8, 0x80#8, 0x06#8, 0x01#8, 0x01#8, 0x00#8,
      0xEF#8, 0xBE#8, 0x7F#8])
    = .ok (.reqRead 0x2C5#12 { seq := 0x1234, reg := 0x8005, pos := 0x0106, len := 1, crc16 := 0xBEEF, payload := [0x7F#8] }) := by
  decide

/-- R61, R66: REQ.WRITE has `opdev[15:12] = 0110`; device 0x2C6, low byte first (R10). -/
theorem test_decode_reqWrite :
    decodeInput Config.reference (.stream [0xC6#8, 0x62#8, 0x34#8, 0x12#8, 0x05#8, 0x80#8, 0x06#8, 0x01#8, 0x01#8, 0x00#8,
      0xEF#8, 0xBE#8, 0x7F#8])
    = .ok (.reqWrite 0x2C6#12 { seq := 0x1234, reg := 0x8005, pos := 0x0106, len := 1, crc16 := 0xBEEF, payload := [0x7F#8] }) := by
  decide

/-- R61, R66: REQ.CHANGE has `opdev[15:12] = 0111`; device 0x2C7, low byte first (R10). -/
theorem test_decode_reqChange :
    decodeInput Config.reference (.stream [0xC7#8, 0x72#8, 0x34#8, 0x12#8, 0x05#8, 0x80#8, 0x06#8, 0x01#8, 0x01#8, 0x00#8,
      0xEF#8, 0xBE#8, 0x7F#8])
    = .ok (.reqChange 0x2C7#12 { seq := 0x1234, reg := 0x8005, pos := 0x0106, len := 1, crc16 := 0xBEEF, payload := [0x7F#8] }) := by
  decide

/-- R61, R66: ACK.SYNC has `opdev[15:12] = 1000`; device 0x2C8, low byte first (R10). -/
theorem test_decode_ackSync :
    decodeInput Config.reference (.stream [0xC8#8, 0x82#8, 0x34#8, 0x12#8, 0x05#8, 0x80#8, 0x06#8, 0x01#8, 0x01#8, 0x00#8,
      0xEF#8, 0xBE#8, 0x7F#8])
    = .ok (.ackSync 0x2C8#12 { seq := 0x1234, reg := 0x8005, pos := 0x0106, len := 1, crc16 := 0xBEEF, payload := [0x7F#8] }) := by
  decide

/-- R61, R66: ACK.READ has `opdev[15:12] = 1001`; device 0x2C9, low byte first (R10). -/
theorem test_decode_ackRead :
    decodeInput Config.reference (.stream [0xC9#8, 0x92#8, 0x34#8, 0x12#8, 0x05#8, 0x80#8, 0x06#8, 0x01#8, 0x01#8, 0x00#8,
      0xEF#8, 0xBE#8, 0x7F#8])
    = .ok (.ackRead 0x2C9#12 { seq := 0x1234, reg := 0x8005, pos := 0x0106, len := 1, crc16 := 0xBEEF, payload := [0x7F#8] }) := by
  decide

/-- R61, R66: ACK.WRITE has `opdev[15:12] = 1010`; device 0x2CA, low byte first (R10). -/
theorem test_decode_ackWrite :
    decodeInput Config.reference (.stream [0xCA#8, 0xA2#8, 0x34#8, 0x12#8, 0x05#8, 0x80#8, 0x06#8, 0x01#8, 0x01#8, 0x00#8,
      0xEF#8, 0xBE#8, 0x7F#8])
    = .ok (.ackWrite 0x2CA#12 { seq := 0x1234, reg := 0x8005, pos := 0x0106, len := 1, crc16 := 0xBEEF, payload := [0x7F#8] }) := by
  decide

/-- R61, R66: ACK.CHANGE has `opdev[15:12] = 1011`; device 0x2CB, low byte first (R10). -/
theorem test_decode_ackChange :
    decodeInput Config.reference (.stream [0xCB#8, 0xB2#8, 0x34#8, 0x12#8, 0x05#8, 0x80#8, 0x06#8, 0x01#8, 0x01#8, 0x00#8,
      0xEF#8, 0xBE#8, 0x7F#8])
    = .ok (.ackChange 0x2CB#12 { seq := 0x1234, reg := 0x8005, pos := 0x0106, len := 1, crc16 := 0xBEEF, payload := [0x7F#8] }) := by
  decide

/-- R61, R66: ERR.SYNC has `opdev[15:12] = 1100`; device 0x2CC, low byte first (R10). -/
theorem test_decode_errSync :
    decodeInput Config.reference (.stream [0xCC#8, 0xC2#8, 0x34#8, 0x12#8, 0x05#8, 0x80#8, 0x06#8, 0x01#8, 0x01#8, 0x00#8,
      0xEF#8, 0xBE#8, 0x7F#8])
    = .ok (.errSync 0x2CC#12 { seq := 0x1234, reg := 0x8005, pos := 0x0106, len := 1, crc16 := 0xBEEF, payload := [0x7F#8] }) := by
  decide

/-- R61, R66: ERR.READ has `opdev[15:12] = 1101`; device 0x2CD, low byte first (R10). -/
theorem test_decode_errRead :
    decodeInput Config.reference (.stream [0xCD#8, 0xD2#8, 0x34#8, 0x12#8, 0x05#8, 0x80#8, 0x06#8, 0x01#8, 0x01#8, 0x00#8,
      0xEF#8, 0xBE#8, 0x7F#8])
    = .ok (.errRead 0x2CD#12 { seq := 0x1234, reg := 0x8005, pos := 0x0106, len := 1, crc16 := 0xBEEF, payload := [0x7F#8] }) := by
  decide

/-- R61, R66: ERR.WRITE has `opdev[15:12] = 1110`; device 0x2CE, low byte first (R10). -/
theorem test_decode_errWrite :
    decodeInput Config.reference (.stream [0xCE#8, 0xE2#8, 0x34#8, 0x12#8, 0x05#8, 0x80#8, 0x06#8, 0x01#8, 0x01#8, 0x00#8,
      0xEF#8, 0xBE#8, 0x7F#8])
    = .ok (.errWrite 0x2CE#12 { seq := 0x1234, reg := 0x8005, pos := 0x0106, len := 1, crc16 := 0xBEEF, payload := [0x7F#8] }) := by
  decide

/-- R61, R66: ERR.CHANGE has `opdev[15:12] = 1111`; device 0x2CF, low byte first (R10). -/
theorem test_decode_errChange :
    decodeInput Config.reference (.stream [0xCF#8, 0xF2#8, 0x34#8, 0x12#8, 0x05#8, 0x80#8, 0x06#8, 0x01#8, 0x01#8, 0x00#8,
      0xEF#8, 0xBE#8, 0x7F#8])
    = .ok (.errChange 0x2CF#12 { seq := 0x1234, reg := 0x8005, pos := 0x0106, len := 1, crc16 := 0xBEEF, payload := [0x7F#8] }) := by
  decide

/-- R70, R72: the reserved codes are refused by name. -/
theorem test_decode_reserved :
    (∀ k ∈ [0b0000#4, 0b0111#4, 0b1000#4, 0b1001#4, 0b1010#4, 0b1011#4, 0b1100#4, 0b1101#4, 0b1110#4, 0b1111#4],
      decodeCommand { code := k } = .error (.reservedCode k)) := by decide

/-- R60: fewer than twelve octets, or not exactly `len` after them, is no frame. -/
theorem test_decode_not_a_frame :
    decodeFrame Config.reference (readRequest.take 11) = .error (.shortHeader 11) ∧
    decodeFrame Config.reference (writeHeader 2#8 ++ [0xAA#8]) = .error (.payloadLength 2 1) ∧
    decodeFrame Config.reference (readRequest ++ [0xAA#8]) = .error (.payloadLength 0 1) := by decide

/-- The words of spec/opcode_table.json, one byte for a command, one word for a frame. -/
theorem test_table_words :
    decodeTableWord 8 0x1 = some .init ∧ decodeTableWord 8 0x2 = some (.fill 0 []) ∧
    decodeTableWord 8 0x3 = some .release ∧ decodeTableWord 8 0x4 = some (.decode (List.replicate 12 0#8)) ∧
    decodeTableWord 8 0x5 = some (.encode 0 0 0 0 0 0 0) ∧ decodeTableWord 8 0x6 = some .seqNext ∧
    decodeTableWord 8 0x7 = none ∧ decodeTableWord 8 0x0 = none ∧
    decodeTableWord 16 0x5001 = some (.reqRead 1#12 { seq := 0, reg := 0, pos := 0, len := 0, crc16 := 0, payload := [] }) ∧
    decodeTableWord 16 0xF0FF = some (.errChange 0xFF#12 { seq := 0, reg := 0, pos := 0, len := 0, crc16 := 0, payload := [] }) := by
  decide

/-! ## One step -/

/-- V98, V99: INIT from power-up, and from PRESENT. -/
theorem test_init :
    nextState (step (State.reset.withFetchWord 8 0x1)) = some (idle.log (.event .init)) ∧
    (after (exec .init ((presenting []).setSeqOut 5#16))).phase = .idle ∧
    (after (exec .init ((presenting []).setSeqOut 5#16))).rcv = 0 ∧
    (after (exec .init ((presenting []).setSeqOut 5#16))).seqIn = 0#16 ∧
    (after (exec .init ((presenting []).setSeqOut 5#16))).seqOut = 0#16 := by decide

/-- V60, V65, V61: header incomplete, the frame complete with its last byte, no data. -/
theorem test_fill :
    nextState (exec (.fill 5 (readRequest.take 5)) idle) = some ((holding (readRequest.take 5)).log (.event (.needHeader 5))) ∧
    nextState (exec (.fill 1 [0xBB#8]) (holding (writeHeader 2#8 ++ [0xAA#8]))) =
      some ((((holding (writeHeader 2#8 ++ [0xAA#8, 0xBB#8])).setSeqIn 3#16).setPhase .present).log
        (.event (.frame writeRequestHeader [0xAA#8, 0xBB#8]))) ∧
    nextState (exec (.fill (-1) []) (holding (readRequest.take 5))) = some ((holding (readRequest.take 5)).log (.event (.noData (-1)))) := by
  decide

/-- V74, V75, V76, V77, V79, V90: FILL's checks and their order, and the hold. -/
theorem test_fill_checks :
    nextState (exec (.fill 3 [0x01#8, 0x50#8]) idle) = some ((idle.setFault .fillLength).log (.fault (.fillLength 3 2))) ∧
    nextState (exec (.fill (-1) [0x00#8]) idle) = some ((idle.setFault .fillLength).log (.fault (.fillLength (-1) 1))) ∧
    nextState (exec (.fill 77 (List.replicate 77 0#8)) idle) = some ((idle.setFault .fillOverrun).log (.fault (.fillOverrun 77 76))) ∧
    nextState (exec (.fill 100 (List.replicate 99 0#8)) idle) = some ((idle.setFault .fillLength).log (.fault (.fillLength 100 99))) ∧
    nextState (exec (.fill 3 [0x00#8]) (presenting [])) = some (presenting []) ∧
    nextState (exec (.fill 0 []) State.reset) = some ((State.reset.setFault .uninit).log (.fault (.uninit 0b0010#4))) := by decide

/-- V83, V82: the leftover moves to the front; an oversize leftover is discarded in the same RELEASE. -/
theorem test_release :
    (after (exec .release (presenting [0x0A#8, 0x0B#8, 0x0C#8]))).trace.getLast? = some (.event (.needHeader 3)) ∧
    (after (exec .release (presenting [0x0A#8, 0x0B#8, 0x0C#8]))).rcv = 3 ∧
    (after (exec .release (presenting [0x0A#8, 0x0B#8, 0x0C#8]))).readBytes 0 3 = .ok [0x0A#8, 0x0B#8, 0x0C#8] ∧
    (after (exec .release (presenting (writeHeader 65#8 ++ [0x01#8, 0x02#8])))).trace.getLast? =
      some (.event (.oversize 65#16 14)) ∧
    (after (exec .release (presenting (writeHeader 65#8 ++ [0x01#8, 0x02#8])))).rcv = 0 := by decide

/-- V80, V91: RELEASE with no frame, and before INIT. -/
theorem test_release_checks :
    nextState (exec .release idle) = some ((idle.setFault .releaseIdle).log (.fault .releaseIdle)) ∧
    nextState (exec .release State.reset) = some ((State.reset.setFault .uninit).log (.fault (.uninit 0b0011#4))) := by decide

/-- V8: crc16 is returned and not checked; V9: later bytes are ignored. -/
theorem test_decode :
    nextState (exec (.decode [0x01#8, 0x50#8, 0x2A#8, 0x00#8, 0x05#8, 0x00#8, 0x00#8, 0x00#8, 0x00#8, 0x00#8, 0x34#8, 0x12#8]) idle) =
      some (idle.log (.event (.decoded { readRequestHeader with crc16 := 0x1234 }))) ∧
    nextState (exec (.decode (readRequest ++ [0xAA#8, 0xBB#8])) idle) = some (idle.log (.event (.decoded readRequestHeader))) := by decide

/-- V5, V10: `len_ok` is false for 65 and no fault; eleven bytes raise F_SHORT_HEADER. -/
theorem test_decode_checks :
    nextState (exec (.decode (writeHeader 65#8)) idle) =
      some (idle.log (.event (.decoded { writeRequestHeader with len := 65, lenOk := false }))) ∧
    nextState (exec (.decode (readRequest.take 11)) idle) = some ((idle.setFault .shortHeader).log (.fault (.shortHeader 11))) := by decide

/-- V24: the masks; V28: the byte order BE. -/
theorem test_encode :
    nextState (exec (.encode 5 6 0x1234 0 0 0 0) idle) = some (idle.log (.event (.encoded
      [0x34#8, 0x62#8, 0x00#8, 0x00#8, 0x00#8, 0x00#8, 0x00#8, 0x00#8, 0x00#8, 0x00#8, 0x00#8, 0x00#8]))) ∧
    nextState (exec (.encode 2 1 1 5 0 2 42) ((State.powerUp { maxPayload := 64, wireOrder := .be }).setPhase .idle)) =
      some (((State.powerUp { maxPayload := 64, wireOrder := .be }).setPhase .idle).log (.event (.encoded
        [0x90#8, 0x01#8, 0x00#8, 0x2A#8, 0x00#8, 0x05#8, 0x00#8, 0x00#8, 0x00#8, 0x02#8, 0x00#8, 0x00#8]))) := by decide

/-- V26, V27: `len = MAX_PAYLOAD` is accepted, one more raises F_ENCODE_OVERSIZE. -/
theorem test_encode_checks :
    nextState (exec (.encode 1 2 1 9 0 64 3) idle) = some (idle.log (.event (.encoded (writeHeader 64#8)))) ∧
    nextState (exec (.encode 1 2 1 9 0 65 3) idle) = some ((idle.setFault .encodeOversize).log (.fault (.encodeOversize 65#16))) := by decide

/-- V41, V42: counting, and the wrap. -/
theorem test_seqNext :
    nextState (exec .seqNext (idle.setSeqOut 7#16)) = some ((idle.setSeqOut 8#16).log (.event (.seq 8#16))) ∧
    nextState (exec .seqNext (idle.setSeqOut 0xFFFF#16)) = some ((idle.setSeqOut 0#16).log (.event (.seq 0#16))) := by decide

/-- V68, V70, V71: an oversize header is discarded when its header is complete, not before. -/
theorem test_oversize :
    (after (exec (.fill 12 (writeHeader 65#8)) idle)).trace = [.event (.oversize 65#16 12)] ∧
    (after (exec (.fill 12 (writeHeader 65#8)) idle)).rcv = 0 ∧
    (after (exec (.fill 12 (writeHeader 65#8)) idle)).seqIn = 0#16 ∧
    (after (exec (.fill 11 ((writeHeader 65#8).take 11)) idle)).trace = [.event (.needHeader 11)] := by decide

/-- V67: a frame that fills the buffer is presented and `space` is 0. -/
theorem test_full_buffer :
    (after (exec (.fill 76 (writeHeader 64#8 ++ List.replicate 64 0x55#8)) idle)).phase = .present ∧
    (after (exec (.fill 76 (writeHeader 64#8 ++ List.replicate 64 0x55#8)) idle)).rcv = 76 ∧
    spacePort (after (exec (.fill 76 (writeHeader 64#8 ++ List.replicate 64 0x55#8)) idle)) = some 0 := by decide

/-- V93, V94, V96: a reserved code before INIT and in IDLE; in a faulted block nothing has a step. -/
theorem test_check_order :
    nextState (step (State.reset.setInputs [.command { code := 0b0000#4 }])) =
      some ((State.reset.setFault .illegalCmd).log (.fault (.illegalCmd 0b0000#4))) ∧
    nextState (step (idle.setInputs [.command { code := 0b0111#4 }])) =
      some ((idle.setFault .illegalCmd).log (.fault (.illegalCmd 0b0111#4))) ∧
    stopOf (exec .init faulted) = some (.quiescent .releaseIdle) ∧
    stopOf (step (faulted.setInputs [.command { code := 0b0001#4 }])) = some (.quiescent .releaseIdle) := by decide

/-- P2, lines 3 and 4: the held FILL stays offered, and the RELEASE behind it takes its step. -/
theorem test_held_fill :
    (after (step ((presenting [0x01#8]).setInputs
      [.command { code := 0b0010#4, r := 1, bytes := [0x02#8] }, .command { code := 0b0011#4 }]))).inputs =
        [.command { code := 0b0010#4, r := 1, bytes := [0x02#8] }] ∧
    (after (step ((presenting [0x01#8]).setInputs
      [.command { code := 0b0010#4, r := 1, bytes := [0x02#8] }, .command { code := 0b0011#4 }]))).rcv = 1 ∧
    nextState (step ((presenting []).setInputs [.command { code := 0b0010#4, r := 1, bytes := [0x02#8] }])) =
      some ((presenting []).setInputs [.command { code := 0b0010#4, r := 1, bytes := [0x02#8] }]) := by decide

/-- X2, V48, D5: each of the sixteen frame rows, received by an empty IDLE block, is presented. -/
theorem test_frame_rows_presented :
    ∀ x ∈ frameRows 1#12 { seq := 9, reg := 5, pos := 0, len := 1, crc16 := 0, payload := [0x7F#8] },
      (after (exec x.1 idle)).phase = .present ∧ (after (exec x.1 idle)).rcv = 13 ∧ (after (exec x.1 idle)).seqIn = 9#16 := by
  decide

/-- R150: a frame longer than `space` is delivered in parts, and its rest stays offered. -/
theorem test_frame_in_parts :
    (after (exec (.reqRead 1#12 { seq := 9, reg := 5, pos := 0, len := 0, crc16 := 0, payload := [] })
      (holding (writeHeader 64#8 ++ List.replicate 60 0x55#8)))).inputs = [.stream ([0x01#8, 0x50#8, 0x09#8, 0x00#8,
        0x05#8, 0x00#8, 0x00#8, 0x00#8, 0x00#8, 0x00#8, 0x00#8, 0x00#8].drop 4)] ∧
    (after (exec (.reqRead 1#12 { seq := 9, reg := 5, pos := 0, len := 0, crc16 := 0, payload := [] })
      (holding (writeHeader 64#8 ++ List.replicate 60 0x55#8)))).rcv = 76 := by decide

/-- R141, log 17: octets offered before INIT raise F_UNINIT(0010), one frame or not, and none stays on offer. -/
theorem test_stream_before_init :
    nextState (step (State.reset.setInputs [.stream (List.replicate 100 0x55#8)])) =
      some ((State.reset.setFault .uninit).log (.fault (.uninit 0b0010#4))) ∧
    nextState (step (State.reset.setInputs [.stream readRequest])) =
      some ((State.reset.setFault .uninit).log (.fault (.uninit 0b0010#4))) := by decide

/-- A table word placed by withFetchWord is what the next step runs, from reset too. -/
theorem test_withFetchWord :
    nextState (step (State.reset.withFetchWord 8 0x6)) = some ((State.reset.setFault .uninit).log (.fault (.uninit 0b0110#4))) ∧
    nextState (step (idle.withFetchWord 8 0x6)) = some ((idle.setSeqOut 1#16).log (.event (.seq 1#16))) ∧
    (after (step (idle.withFetchWord 16 0x5001))).phase = .present := by decide

/-! ## Witnesses: states and operands that meet the hypotheses of each statement, at the bounds of its clauses -/

/-- The frame octets of H2 with its payload, and the longest frame the reference block admits. -/
def shortFrame : List Byte := writeHeader 2#8 ++ [0xAA#8, 0xBB#8]
def longFrame : List Byte := writeHeader 64#8 ++ List.replicate 64 0x55#8

/-- A frame body with one payload octet. -/
def body : FrameBody := { seq := 9, reg := 5, pos := 0, len := 1, crc16 := 0, payload := [0x7F#8] }

/-- The invariant in IDLE with bytes held, and in PRESENT with bytes behind the frame. -/
theorem witness_BlockInv_idle : BlockInv (holding (shortFrame.take 13)) where
  canonical := by decide
  inside := by decide
  bounded := by decide
  valued := by decide
  idle := fun _ => .inr ⟨2#16, by decide, by decide, by decide⟩
  present := fun h => absurd h (by decide)
  faults := by decide

theorem witness_BlockInv_present : BlockInv (presenting [0x01#8]) where
  canonical := by decide
  inside := by decide
  bounded := by decide
  valued := by decide
  idle := fun h => absurd h (by decide)
  present := fun _ => ⟨readRequestHeader, [], by decide, by decide, by decide, by decide, by decide⟩
  faults := by decide

theorem witness_DecodeOfEncodeIsTheInstruction :
    Instr.wf .init = true ∧ Instr.wf (.fill (-1) []) = true ∧ Instr.wf (.fill 1 [0#8]) = true ∧
    Instr.wf (.decode readRequest) = true ∧ Instr.wf (.encode 0xFFFF 0xFFFF 0xFFFF 0 0 0xFFFF 0) = true ∧
    ∀ x ∈ frameRows 0xFFF#12 body, x.1.wf = true := by decide

theorem witness_FrameOctetsDecodeExactly :
    (hdrLen ≤ readRequest.length ∧ readRequest.length = hdrLen + (frontLen Config.reference readRequest).toNat) ∧
    (hdrLen ≤ longFrame.length ∧ longFrame.length = hdrLen + (frontLen Config.reference longFrame).toNat) ∧
    decodeFrame Config.reference (readRequest ++ [0x00#8]) = .error (.payloadLength 0 1) ∧
    ∃ i, decodeFrame Config.reference shortFrame = .ok i :=
  ⟨by decide, by decide, by decide, _, rfl⟩

theorem witness_ReservedCodesRaiseIllegalCmd :
    (∀ k ∈ [0b0000#4, 0b0111#4, 0b1111#4], k.toNat = 0 ∨ 7 ≤ k.toNat) ∧
    (∀ k ∈ [0b0001#4, 0b0110#4], 1 ≤ k.toNat ∧ k.toNat ≤ 6) ∧
    idle.fault = none ∧ (presenting []).fault = none ∧ State.reset.fault = none ∧
    (idle.setInputs [.command { code := 0b0111#4 }]).inputs = .command { code := 0b0111#4 } :: [] := by decide

theorem witness_WireOrderOfWords :
    bytes16 .le 0x0180#16 = [0x80#8, 0x01#8] ∧ bytes16 .be 0x0180#16 = [0x01#8, 0x80#8] := by decide

theorem witness_HeaderFieldsAssembled : hdrLen ≤ readRequest.length ∧ hdrLen ≤ longFrame.length := by decide

theorem witness_HeaderRoundTrip :
    ((3#16 : Word).toNat ≤ 3 ∧ (3#16 : Word).toNat ≤ 3 ∧ (4095#16 : Word).toNat ≤ 4095 ∧
      (64#16 : Word).toNat ≤ Config.reference.maxPayload.val) ∧
    (3 < (4#16 : Word).toNat ∧ 4095 < (4096#16 : Word).toNat) ∧
    (∃ d, hdrDecode Config.reference (hdrEncode Config.reference.wireOrder 4 0 0 0 0 0 0) = some d) ∧
    (∃ d, hdrDecode Config.reference (hdrEncode Config.reference.wireOrder 0 4 0 0 0 0 0) = some d) ∧
    ∃ d, hdrDecode Config.reference (hdrEncode Config.reference.wireOrder 0 0 4096 0 0 0 0) = some d :=
  ⟨by decide, by decide, ⟨_, rfl⟩, ⟨_, rfl⟩, _, rfl⟩

theorem witness_HeaderReverseLaw :
    readRequest.length = 12 ∧ (writeHeader 64#8).length = 12 ∧ (writeHeader 65#8).length = 12 ∧
    idle.cfg = Config.reference ∧ idle.fault = none ∧ idle.phase ≠ .uninit := by decide

theorem witness_HeaderFieldsIndependent :
    readRequest.length = 12 ∧ hdrDecode Config.reference readRequest = hdrDecode Config.reference readRequest ∧
    hdrDecode Config.reference (writeHeader 2#8) ≠ hdrDecode Config.reference (writeHeader 3#8) := by decide

theorem witness_CommandsBeforeInitRaiseUninit :
    State.reset.fault = none ∧ State.reset.phase = .uninit ∧ (Instr.release ≠ .init) ∧
    ∀ x ∈ frameRows 1#12 body, x.1 ≠ .init := by decide

theorem witness_InitSetsItsValues :
    State.reset.fault = none ∧ idle.fault = none ∧ (presenting [0x01#8]).fault = none := by decide

theorem witness_StatusPortShowsPhase :
    faulted.fault ≠ none ∧ (State.reset.fault = none ∧ State.reset.phase = .uninit) ∧
    ((holding (readRequest.take 11)).fault = none ∧ (holding (readRequest.take 11)).phase = .idle ∧
      (holding (readRequest.take 11)).rcv < hdrLen) ∧
    ((holding (writeHeader 2#8)).fault = none ∧ (holding (writeHeader 2#8)).phase = .idle ∧
      hdrLen ≤ (holding (writeHeader 2#8)).rcv) ∧
    ((presenting []).fault = none ∧ (presenting []).phase = .present) := by decide

theorem witness_SeqNextCountsModulo :
    (idle.setSeqOut 0xFFFF#16).fault = none ∧ (idle.setSeqOut 0xFFFF#16).phase ≠ .uninit := by decide

theorem witness_DecodeReportsItsHeader :
    (idle.fault = none ∧ idle.phase ≠ .uninit) ∧ ((presenting []).fault = none ∧ (presenting []).phase ≠ .uninit) ∧
    hdrLen ≤ readRequest.length ∧ (readRequest.take 11).length < hdrLen := by decide

theorem witness_EncodeReportsItsBytes :
    (idle.fault = none ∧ idle.phase ≠ .uninit) ∧ ((presenting []).fault = none ∧ (presenting []).phase ≠ .uninit) ∧
    (64#16 : Word).toNat ≤ idle.cfg.maxPayload.val ∧ idle.cfg.maxPayload.val < (65#16 : Word).toNat := by decide

theorem witness_ScanOutcomesFromHeldBytes :
    (Holds (holding (readRequest.take 11)) (readRequest.take 11) ∧ (readRequest.take 11).length < hdrLen) ∧
    (Holds (holding (writeHeader 65#8)) (writeHeader 65#8) ∧ hdrLen ≤ (writeHeader 65#8).length ∧
      Config.reference.maxPayload.val < (frontLen Config.reference (writeHeader 65#8)).toNat) ∧
    (Holds (holding (shortFrame.take 13)) (shortFrame.take 13) ∧ hdrLen ≤ (shortFrame.take 13).length ∧
      (frontLen Config.reference (shortFrame.take 13)).toNat ≤ Config.reference.maxPayload.val ∧
      (shortFrame.take 13).length < hdrLen + (frontLen Config.reference (shortFrame.take 13)).toNat) ∧
    (Holds (holding longFrame) longFrame ∧
      (frontLen Config.reference longFrame).toNat ≤ Config.reference.maxPayload.val ∧
      hdrLen + (frontLen Config.reference longFrame).toNat ≤ longFrame.length) := by
  unfold Holds; decide

/-- Each clause of FILL's outcomes: the delivery of exactly `space` bytes and of one more among them. -/
theorem witness_FillOutcomes :
    (State.reset.fault = none ∧ State.reset.phase = .uninit ∧ Holds State.reset []) ∧
    ((presenting []).fault = none ∧ (presenting []).phase = .present ∧ Holds (presenting []) readRequest) ∧
    ((holding (longFrame.take 70)).fault = none ∧ (holding (longFrame.take 70)).phase = .idle ∧
      Holds (holding (longFrame.take 70)) (longFrame.take 70)) ∧
    (([0#8].length : Int) ≠ max 2 0 ∧ ([0#8].length : Int) ≠ max (-1) 0) ∧
    ((([] : List Byte).length : Int) = max 0 0 ∧ (0 : Int) ≤ 0) ∧
    (((List.replicate 7 0#8).length : Int) = max 7 0 ∧
      ((Config.reference.maxFrame - (holding (longFrame.take 70)).rcv : Nat) : Int) < 7) ∧
    (((List.replicate 6 0#8).length : Int) = 6 ∧ (0 : Int) < 6 ∧
      (6 : Int) ≤ ((Config.reference.maxFrame - (holding (longFrame.take 70)).rcv : Nat) : Int)) := by
  unfold Holds; decide

theorem witness_ReleaseOutcomes :
    (State.reset.fault = none ∧ State.reset.phase = .uninit ∧ Holds State.reset []) ∧
    (idle.fault = none ∧ idle.phase = .idle ∧ Holds idle []) ∧
    ((presenting []).fault = none ∧ (presenting []).phase = .present ∧ Holds (presenting []) readRequest ∧
      (presenting []).rcv ≤ (presenting []).cfg.maxFrame ∧
      hdrLen + (frontLen (presenting []).cfg readRequest).toNat ≤ readRequest.length) ∧
    ((presenting longFrame).rcv = 88 ∧ ¬ (presenting longFrame).rcv ≤ (presenting longFrame).cfg.maxFrame) := by
  unfold Holds; decide

theorem witness_FillHoldsWhilePresent :
    (presenting []).fault = none ∧ (presenting []).phase = .present ∧
    ((presenting []).setInputs [.command { code := 0b0010#4, r := 1, bytes := [0#8] }]).inputs =
      [.command { code := 0b0010#4, r := 1, bytes := [0#8] }] ∧
    ({ code := 0b0010#4, r := 1, bytes := [0#8] } : CommandPort).code = 0b0010#4 := by decide

theorem witness_StreamHoldsWhilePresent :
    (Instr.errChange 1#12 body, 0b1111#4) ∈ frameRows 1#12 body ∧
    ((presenting []).setInputs [.stream [0#8], .command { code := 0b0010#4 }]).fault = none ∧
    ((presenting []).setInputs [.stream [0#8], .command { code := 0b0010#4 }]).phase = .present ∧
    ∀ x ∈ ((presenting []).setInputs [.stream [0#8], .command { code := 0b0010#4 }]).inputs,
      (∃ octets, x = .stream octets) ∨ ∃ p : CommandPort, p.code = 0b0010#4 ∧ x = .command p := by
  refine ⟨by decide, by decide, by decide, fun x hx => ?_⟩
  rcases List.mem_cons.mp hx with rfl | hx
  · exact .inl ⟨_, rfl⟩
  · rw [List.mem_singleton.mp hx]
    exact .inr ⟨{ code := 0b0010#4 }, rfl, rfl⟩

theorem witness_HeldFillStaysOffered :
    (presenting []).fault = none ∧ (presenting []).phase = .present ∧ idle.phase ≠ .present ∧ idle.fault = none ∧
    (({ code := 0b0010#4, r := 0 } : CommandPort).code = 0b0010#4) ∧
    (({ code := 0b0011#4 } : CommandPort).code = 0b0011#4) ∧ (({ code := 0b0001#4 } : CommandPort).code = 0b0001#4) := by
  decide

/-- Each of the sixteen rows with the longest payload, and with none. -/
theorem witness_FrameRowsArePresented :
    idle.fault = none ∧ idle.phase = .idle ∧ idle.rcv = 0 ∧
    (frameRows 1#12 { body with len := 64, payload := List.replicate 64 0#8 }).length = 16 ∧
    ((List.replicate 64 0#8 : List Byte).length = (64#16 : Word).toNat ∧ (64#16 : Word).toNat ≤ idle.cfg.maxPayload.val) ∧
    (([] : List Byte).length = (0#16 : Word).toNat ∧ (0#16 : Word).toNat ≤ idle.cfg.maxPayload.val) := by decide

theorem witness_FrameRowsAreReceived :
    (Instr.reqWrite 1#12 body, 0b0110#4) ∈ frameRows 1#12 body ∧
    (∃ octets, encode Config.reference (.reqWrite 1#12 body) = .stream octets) ∧
    (State.reset.fault = none ∧ State.reset.phase = .uninit) ∧
    ((holding (longFrame.take 75)).fault = none ∧ (holding (longFrame.take 75)).phase = .idle ∧
      (holding (longFrame.take 75)).rcv < (holding (longFrame.take 75)).cfg.maxFrame) ∧
    Holds (holding (longFrame.take 75)) (longFrame.take 75) :=
  ⟨by decide, ⟨_, rfl⟩, by decide, by decide, by unfold Holds; decide⟩

/-- A FILL that appends, one that presents, one that holds, one that faults, one without data. -/
theorem witness_FillLeavesTheRest :
    (∃ t, exec (.fill 1 [0x01#8]) idle = .next t ∧ t.phase = idle.phase ∧ t.rcv = 1) ∧
    (∃ t, exec (.fill 12 readRequest) idle = .next t ∧ t.phase = .present) ∧
    (∃ t, exec (.fill 1 [0x01#8]) (presenting []) = .next t ∧ (presenting []).phase ≠ .idle) ∧
    (∃ t, exec (.fill 2 [0x01#8]) idle = .next t ∧ t.fault ≠ none) ∧
    ∃ t, exec (.fill 0 []) idle = .next t ∧ (0 : Int) ≤ 0 :=
  ⟨⟨_, rfl, by decide⟩, ⟨_, rfl, by decide⟩, ⟨_, rfl, by decide⟩, ⟨_, rfl, by decide⟩, _, rfl, by decide⟩

theorem witness_ReleaseLeavesTheRest :
    (∃ t, exec .release idle = .next t ∧ idle.phase ≠ .present) ∧
    (∃ t, exec .release (presenting [0x01#8]) = .next t ∧ (presenting [0x01#8]).phase = .present ∧ t.phase = .idle) ∧
    ∃ t, exec .release (presenting readRequest) = .next t ∧ (presenting readRequest).phase = .present ∧ t.phase = .present :=
  ⟨⟨_, rfl, by decide⟩, ⟨_, rfl, by decide⟩, _, rfl, by decide⟩

theorem witness_BufferlessCommandsLeaveTheRest :
    (∃ t, exec (.decode readRequest) idle = .next t) ∧ (∃ t, exec (.decode []) idle = .next t ∧ t.fault ≠ none) ∧
    (∃ t, exec (.encode 0 0 0 0 0 64 0) idle = .next t) ∧ (∃ t, exec .seqNext idle = .next t) ∧
    ∃ t, exec .seqNext State.reset = .next t ∧ t.fault ≠ none :=
  ⟨⟨_, rfl⟩, ⟨_, rfl, by decide⟩, ⟨_, rfl⟩, ⟨_, rfl⟩, _, rfl, by decide⟩

theorem witness_FrameRowsLeaveTheRest :
    (Instr.reqWrite 1#12 body, 0b0110#4) ∈ frameRows 1#12 body ∧
    (∃ octets, encode idle.cfg (.reqWrite 1#12 body) = .stream octets) ∧
    (∃ t, exec (.reqWrite 1#12 body) idle = .next t) ∧
    (∃ t, exec (.reqWrite 1#12 body) (holding (longFrame.take 70)) = .next t ∧ t.inputs ≠ []) ∧
    (∃ t, exec (.reqWrite 1#12 body) (holding (longFrame.take 13)) = .next t ∧
      t.phase = (holding (longFrame.take 13)).phase) ∧
    ∃ t, exec (.reqWrite 1#12 body) (presenting []) = .next t ∧ (presenting []).phase ≠ .idle :=
  ⟨by decide, ⟨_, rfl⟩, ⟨_, rfl⟩, ⟨_, rfl, by decide⟩, ⟨_, rfl, by decide⟩, _, rfl, by decide⟩

theorem witness_FaultsAreStickyAndPrecise :
    faulted.fault = some .releaseIdle ∧
    (faulted.setInputs [.command { code := 0b0000#4 }]).inputs = .command { code := 0b0000#4 } :: [] ∧
    ∃ t, exec .release idle = .next t ∧ t.fault ≠ none :=
  ⟨by decide, by decide, _, rfl, by decide⟩

theorem witness_EveryStepAppendsOneEntry :
    (∃ t, exec (.fill 0 []) (presenting []) = .next t) ∧ (∃ t, exec .release idle = .next t) ∧
    ∃ t, exec (.fill 12 (writeHeader 65#8)) idle = .next t := ⟨⟨_, rfl⟩, ⟨_, rfl⟩, _, rfl⟩

/-- Each command that completes, in IDLE and in PRESENT; a FILL of exactly `space` bytes and of r = 0 among them. -/
theorem witness_CommandsEmitTheirEvents :
    BlockInv (presenting [0x01#8]) ∧ (presenting [0x01#8]).fault = none ∧
    BlockInv (holding (shortFrame.take 13)) ∧ (holding (shortFrame.take 13)).fault = none ∧
    (∀ f, ¬ Raises (presenting [0x01#8]) .release f) ∧ (∀ f, ¬ Raises (presenting [0x01#8]) .seqNext f) ∧
    (∀ f, ¬ Raises (presenting [0x01#8]) .init f) ∧ (∀ f, ¬ Raises (presenting [0x01#8]) (.decode readRequest) f) ∧
    (∀ f, ¬ Raises (presenting [0x01#8]) (.encode 0 0 0 0 0 64 0) f) ∧
    (∀ f, ¬ Raises (holding (shortFrame.take 13)) (.fill 0 []) f) ∧
    (∀ f, ¬ Raises (holding (shortFrame.take 13)) (.fill 63 (List.replicate 63 0x55#8)) f) ∧
    ¬ ((Instr.fill 0 []).code = 0b0010#4 ∧ (holding (shortFrame.take 13)).phase = .present) ∧
    ¬ (Instr.release.code = 0b0010#4 ∧ (presenting [0x01#8]).phase = .present) := by
  refine ⟨witness_BlockInv_present, by decide, witness_BlockInv_idle, by decide, ?_, ?_, ?_, ?_, ?_, ?_, ?_, by decide, by decide⟩
  all_goals intro f hf; cases f
  all_goals simp [Raises, presenting, holding, idle, readRequest, hdrLen] at hf
  all_goals first
    | omega
    | (obtain ⟨⟨rfl, -⟩, rfl, h⟩ := hf; revert h; decide)
    | (obtain ⟨rfl, h⟩ := hf; revert h; decide)

/-- Each cause of R122, at the bound of its check. -/
theorem witness_FaultsRaisedOnTheirCauses :
    Raises State.reset .seqNext (.uninit 0b0110#4) ∧ Raises idle .release .releaseIdle ∧
    Raises (holding (longFrame.take 70)) (.fill 7 (List.replicate 7 0#8)) (.fillOverrun 7 6) ∧
    Raises idle (.fill (-1) [0#8]) (.fillLength (-1) 1) ∧
    Raises idle (.decode (readRequest.take 11)) (.shortHeader 11) ∧
    Raises idle (.encode 1 2 1 9 0 65 3) (.encodeOversize 65#16) ∧
    (∃ t, exec .release idle = .next t ∧ t.fault ≠ none) ∧
    (∀ k ∈ [0b0000#4, 0b0111#4, 0b1111#4], k.toNat = 0 ∨ 7 ≤ k.toNat) :=
  ⟨⟨by decide, by decide, by decide⟩, ⟨by decide, rfl⟩, ⟨by decide, ⟨_, rfl, by decide⟩, by decide, by decide⟩,
    ⟨by decide, _, rfl, by decide, by decide⟩, ⟨by decide, _, rfl, by decide, by decide⟩,
    ⟨by decide, ⟨_, _, _, _, _, _, rfl⟩, by decide⟩, ⟨_, rfl, by decide⟩, by decide⟩

theorem witness_PortsShowRegistersAfterInit :
    idle.phase ≠ .uninit ∧ (presenting []).phase ≠ .uninit ∧ faulted.phase ≠ .uninit ∧
    (∃ t, exec .init State.reset = .next t) ∧ ∃ t, exec .release (presenting []) = .next t ∧ (presenting []).phase ≠ .uninit :=
  ⟨by decide, by decide, by decide, ⟨_, rfl⟩, _, rfl, by decide⟩

theorem witness_SeqInCapturedAtPresentation :
    (∃ t, exec (.fill 12 readRequest) idle = .next t ∧ t.trace = idle.trace ++ [.event (.frame readRequestHeader [])]) ∧
    (∃ t, exec .init (presenting []) = .next t) ∧ ∃ t, exec .seqNext (presenting []) = .next t :=
  ⟨⟨_, rfl, by decide⟩, ⟨_, rfl⟩, _, rfl⟩

theorem witness_SequenceRegistersIndependent :
    (∃ t, exec .seqNext idle = .next t ∧ Instr.seqNext ≠ .init) ∧
    ∃ t, exec (.fill 12 readRequest) idle = .next t ∧ Instr.fill 12 readRequest ≠ .init :=
  ⟨⟨_, rfl, by decide⟩, _, rfl, by decide⟩

theorem witness_OutboundNumbersCountUp :
    (Instr.init ∉ [.seqNext, .fill 12 readRequest, .seqNext]) ∧
    (∃ t, runAll [.seqNext, .fill 12 readRequest, .seqNext] (idle.setSeqOut 0xFFFF#16) = .next t ∧ t.fault = none ∧
      (idle.setSeqOut 0xFFFF#16).phase ≠ .uninit) ∧
    (∃ t, runAll [.seqNext] State.reset = .next t ∧ t.fault ≠ none) ∧
    (idle.fault = none ∧ idle.phase ≠ .uninit) ∧ ((0 : Nat) < 65536 ∧ 65535 < 65536 ∧ (0 : Nat) ≠ 65535) :=
  ⟨by decide, ⟨_, rfl, by decide⟩, ⟨_, rfl, by decide⟩, by decide, by decide⟩

theorem witness_ReplyEchoesPresentedSeq :
    BlockInv (presenting [0x01#8]) ∧ (presenting [0x01#8]).fault = none ∧ (presenting [0x01#8]).phase = .present ∧
    (64#16 : Word).toNat ≤ (presenting [0x01#8]).cfg.maxPayload.val :=
  ⟨witness_BlockInv_present, by decide⟩

theorem witness_NoOverRead :
    ∃ t, exec (.fill 1 [0xBB#8]) (holding (shortFrame.take 13)) = .next t ∧
      t.trace = (holding (shortFrame.take 13)).trace ++ [.event (.frame writeRequestHeader [0xAA#8, 0xBB#8])] :=
  ⟨_, rfl, by decide⟩

/-- X3: the split 11 + 1 + 2. -/
theorem witness_ChunkingInvariance :
    idle.fault = none ∧ idle.phase = .idle ∧ idle.rcv = 0 ∧
    (∀ d ∈ [shortFrame.take 11, (shortFrame.drop 11).take 1, shortFrame.drop 12], d ≠ []) ∧
    WholeFrame idle.cfg [shortFrame.take 11, (shortFrame.drop 11).take 1, shortFrame.drop 12].flatten := by
  unfold WholeFrame; decide

/-- X4, and two frames that fill the buffer exactly. -/
theorem witness_TwoFramesInOneRead :
    idle.fault = none ∧ idle.phase = .idle ∧ idle.rcv = 0 ∧
    WholeFrame idle.cfg shortFrame ∧ WholeFrame idle.cfg readRequest ∧
    shortFrame.length + readRequest.length ≤ idle.cfg.maxFrame ∧
    WholeFrame idle.cfg (writeHeader 52#8 ++ List.replicate 52 0x55#8) ∧
    (writeHeader 52#8 ++ List.replicate 52 0x55#8).length + readRequest.length = idle.cfg.maxFrame := by
  unfold WholeFrame; decide

/-- Three frames, more octets than the buffer holds. -/
theorem witness_StreamOfFramesIsPresentedInOrder :
    idle.fault = none ∧ idle.phase = .idle ∧ idle.rcv = 0 ∧
    (∀ f ∈ [shortFrame, longFrame, readRequest], WholeFrame idle.cfg f) ∧
    idle.cfg.maxFrame < [shortFrame, longFrame, readRequest].flatten.length ∧
    (idle.setInputs (.stream [shortFrame, longFrame, readRequest].flatten ::
      List.replicate 3 (.command { code := 0b0011#4 }))).inputs =
      .stream [shortFrame, longFrame, readRequest].flatten ::
        List.replicate [shortFrame, longFrame, readRequest].length (.command { code := 0b0011#4 }) := by
  unfold WholeFrame; decide

theorem witness_EveryStepKeepsTheInvariant :
    (∃ t, BlockInv ((holding (shortFrame.take 13)).setInputs [.stream [0xBB#8]]) ∧
      step ((holding (shortFrame.take 13)).setInputs [.stream [0xBB#8]]) = .next t) ∧
    ∃ t, BlockInv (presenting [0x01#8]) ∧ step (presenting [0x01#8]) = .next t :=
  ⟨⟨_, ⟨witness_BlockInv_idle.1, witness_BlockInv_idle.2, witness_BlockInv_idle.3, witness_BlockInv_idle.4,
    witness_BlockInv_idle.5, witness_BlockInv_idle.6, witness_BlockInv_idle.7⟩, rfl⟩, _, witness_BlockInv_present, rfl⟩

theorem witness_EveryStepKeepsMemoryCanonical :
    ∃ t, (holding (shortFrame.take 13)).buf.wf ∧
      step ((holding (shortFrame.take 13)).setInputs [.stream [0xBB#8]]) = .next t := ⟨_, by decide, rfl⟩

theorem witness_UnfaultedBlockGoesOn :
    BlockInv (holding (shortFrame.take 13)) ∧ (holding (shortFrame.take 13)).fault = none :=
  ⟨witness_BlockInv_idle, by decide⟩

theorem witness_IdleHasSpace :
    BlockInv (holding (shortFrame.take 13)) ∧ Holds (holding (shortFrame.take 13)) (shortFrame.take 13) ∧
    (holding (shortFrame.take 13)).phase = .idle :=
  ⟨witness_BlockInv_idle, by unfold Holds; decide, by decide⟩

theorem witness_PresentedFrameIsTheLastReported :
    (BlockInv (presenting [0x01#8]) ∧ Holds (presenting [0x01#8]) (readRequest ++ [0x01#8]) ∧
      (presenting [0x01#8]).phase = .present) ∧
    BlockInv (holding (shortFrame.take 13)) ∧ Holds (holding (shortFrame.take 13)) (shortFrame.take 13) ∧
      (holding (shortFrame.take 13)).phase ≠ .present :=
  ⟨⟨witness_BlockInv_present, by unfold Holds; decide, by decide⟩, witness_BlockInv_idle, by unfold Holds; decide, by decide⟩

theorem witness_ConfigurationNeverChanges :
    ∃ t, step (idle.setInputs [.stream readRequest]) = .next t := ⟨_, rfl⟩

/-- A faulted block, one outside PRESENT, and a command that is no FILL in PRESENT; and nothing offered. -/
theorem witness_StepRunsTheOfferedInstruction :
    (decodeInput faulted.cfg (.command { code := 0b0001#4 }) = .ok .init ∧ faulted.fault ≠ none) ∧
    (decodeInput idle.cfg (.command { code := 0b0110#4 }) = .ok .seqNext ∧ idle.phase ≠ .present) ∧
    (decodeInput (presenting []).cfg (.command { code := 0b0011#4 }) = .ok .release ∧
      ({ code := 0b0011#4 } : CommandPort).code ≠ 0b0010#4) ∧
    (idle.setInputs [.command { code := 0b0110#4 }]).inputs = .command { code := 0b0110#4 } :: [] ∧
    idle.inputs = [] := by decide

theorem witness_StreamIsDeliveredByFill :
    idle.fault = none ∧ idle.phase = .idle ∧
    (idle.setInputs [.stream (longFrame ++ readRequest)]).inputs = .stream (longFrame ++ readRequest) :: [] ∧
    (holding (longFrame.take 70)).phase = .idle := by decide

/-- Ended with a frame pending, ended idle, faulted, and stuck with a held FILL. -/
theorem witness_RunsEndOrAreStuck :
    (BlockInv (presenting [0x01#8]) ∧ (presenting [0x01#8]).Correct ∧ (presenting [0x01#8]).FramePending) ∧
    (BlockInv (holding (shortFrame.take 13)) ∧ (holding (shortFrame.take 13)).Correct ∧
      (holding (shortFrame.take 13)).IdleEnd 13) ∧
    (State.reset.Ended ∧ ¬ State.reset.Correct) ∧ (faulted.fault ≠ none ∧ faulted.Ended) ∧
    ((presenting []).setInputs [.command { code := 0b0010#4, r := 1, bytes := [0#8] }]).Stuck ∧
    ¬ ((presenting []).setInputs [.command { code := 0b0011#4 }]).Stuck := by
  refine ⟨⟨witness_BlockInv_present, ?_⟩, ⟨witness_BlockInv_idle, ?_⟩, ?_⟩
  all_goals simp only [State.FramePending, State.IdleEnd, State.Correct, State.Ended, State.Stuck]
  all_goals decide

end Sys2Proof.Tests
end

section
/-! SUPPORT. The values of the wire-order helpers as numbers, and the statements on words and frame lengths (spec/00_scope.md R7, R10). -/

namespace Sys2Proof

/-- The byte on the low eight bits of a word and the byte above it weigh 1 and 256. -/
theorem halves_toNat (lo hi : Byte) :
    (lo.setWidth 16 ||| (hi.setWidth 16 <<< 8) : Word).toNat = lo.toNat + 256 * hi.toNat := by
  have hlo := lo.isLt
  have hhi := hi.isLt
  have hlow : lo.toNat % 2 ^ 16 = lo.toNat := by omega
  have hshift : (hi.toNat % 2 ^ 16) <<< 8 % 2 ^ 16 = 2 ^ 8 * hi.toNat := by
    rw [Nat.shiftLeft_eq]; omega
  rw [BitVec.toNat_or, BitVec.toNat_setWidth, BitVec.toNat_shiftLeft, BitVec.toNat_setWidth, hlow, hshift,
    Nat.or_comm, ← Nat.two_pow_add_eq_or_of_lt hlo, Nat.add_comm]

theorem word16_le_toNat (a b : Byte) : (word16 .le a b).toNat = a.toNat + 256 * b.toNat := halves_toNat a b

theorem word16_be_toNat (a b : Byte) : (word16 .be a b).toNat = 256 * a.toNat + b.toNat := by
  rw [word16, BitVec.or_comm, halves_toNat, Nat.add_comm]

theorem bits_high (w : Word) : w.extractLsb' 8 8 = BitVec.ofNat 8 (w.toNat / 256) := by
  apply BitVec.eq_of_toNat_eq
  simp only [BitVec.extractLsb'_toNat, BitVec.toNat_ofNat, Nat.shiftRight_eq_div_pow, Nat.reducePow]

theorem bits_low_ofNat (w : Word) : w.extractLsb' 0 8 = BitVec.ofNat 8 w.toNat := rfl

/-- Combining the two bytes a word splits into gives the word back (R10). -/
theorem word16_of_bytes16 {o : WireOrder} {w : Word} {a b : Byte} (h : bytes16 o w = [a, b]) : word16 o a b = w := by
  obtain ⟨x, y, hxy, hw⟩ := bytes16_pair o w
  rw [h] at hxy
  cases hxy
  exact hw

/-- Settles O5: the two byte orders differ in which byte weighs 256. -/
theorem wireOrderOfWords : Obligations.WireOrderOfWords := by
  refine ⟨fun a b => ⟨word16_le_toNat a b, word16_be_toNat a b⟩, fun w => ?_,
    fun o w a b => ⟨bytes16_word16 o a b, word16_of_bytes16⟩⟩
  simp only [bytes16, bits_high, bits_low_ofNat, and_self]

/-- The largest buffer of R7. -/
theorem Config.maxFrame_le (c : Config) : c.maxFrame ≤ 65547 := by
  have hmax := c.maxPayload.isLt
  unfold Config.maxFrame hdrLen
  omega

/-- Settles O11: the largest `len`, 65535, already needs the seventeenth bit. -/
theorem frameLengthFitsSeventeenBits : Obligations.FrameLengthFitsSeventeenBits := by
  refine ⟨Config.maxFrame_le, fun len => ?_, 0xFFFF#16, by decide⟩
  have hlen := len.isLt
  unfold hdrLen
  omega

end Sys2Proof
end

section
/-! SUPPORT. The configuration is kept by every outcome of an instruction and of a step (spec/00_scope.md R6, spec/20_memory.md R44). -/

namespace Sys2Proof.Machine

/-- No RELEASE that answers changes the configuration. -/
theorem releaseFrame_cfg {s t : State} (h : releaseFrame s = .next t) : t.cfg = s.cfg := by
  obtain ⟨_, _, _, _, _, _, _, hscan⟩ := releaseFrame_next h
  obtain ⟨hcfg, -⟩ := scan_frame hscan
  exact hcfg

/-- No outcome of an instruction changes the configuration: all but the appends and RELEASE are single updates. -/
theorem Answers.cfg_eq {s t : State} {i : Instr} (h : Answers s i t) : t.cfg = s.cfg := by
  cases h
  case fill happend => exact (append_frame happend).1
  case row happend => exact (append_frame happend).1.trans (State.putBack_cfg ..)
  case release hrelease => exact releaseFrame_cfg hrelease
  case rowNoData => exact State.putBack_cfg ..
  all_goals rfl

theorem exec_cfg {i : Instr} {s t : State} (h : exec i s = .next t) : t.cfg = s.cfg := (exec_answers h).2.cfg_eq

/-- A reserved code that answers has raised F_ILLEGAL_CMD (R72). -/
theorem illegalCommand_next {code : BitVec 4} {s t : State} (h : illegalCommand code s = .next t) :
    t = s.raised (.illegalCmd code) := by
  obtain ⟨-, h⟩ := unlessFaulted_next h
  cases h
  rfl

/-- Settles O50: the state an input runs in differs from `s` in the offers alone, and no outcome writes `cfg`. -/
theorem configurationNeverChanges : Obligations.ConfigurationNeverChanges := by
  intro s t h
  obtain ⟨-, rfl⟩ | ⟨i, u, hfetch, hexec⟩ | ⟨code, u, hfetch, hill⟩ := step_next h
  · rfl
  · obtain ⟨left, rfl⟩ := fetch_state (.inl ⟨i, hfetch⟩)
    exact (exec_cfg hexec).trans (State.setInputs_cfg ..)
  · obtain ⟨left, rfl⟩ := fetch_state (.inr ⟨code, hfetch⟩)
    rw [illegalCommand_next hill]
    rfl

end Sys2Proof.Machine
end

section
/-! SUPPORT. The step that runs the first offer, where it is not a held FILL (spec/00_scope.md R12, R13). -/

namespace Sys2Proof.Machine

/-- Only a FILL of an unfaulted block in PRESENT is held (R145). -/
theorem isHeld_eq_false {s : State} {x : Input}
    (h : s.fault ≠ none ∨ s.phase ≠ .present ∨ ∃ p : CommandPort, x = .command p ∧ p.code ≠ 0b0010#4) :
    isHeld s x = false := by
  obtain hfault | hphase | ⟨p, rfl, hcode⟩ := h
  · simp [isHeld, Option.isNone_eq_false_iff.mpr (Option.isSome_iff_ne_none.mpr hfault)]
  · simp [isHeld, hphase]
  · simp [isHeld, isFill, hcode]

/-- An input that decodes is taken as what it decodes to. -/
theorem takeInput_decoded {s : State} {x : Input} {i : Instr} (h : decodeInput s.cfg x = .ok i) :
    takeInput x s = .instr i s := by
  simp [takeInput, h]

/-- The step takes the first offer where that is not held. -/
theorem fetch_head {s : State} {x : Input} {rest : List Input} (hin : s.inputs = x :: rest)
    (h : isHeld s x = false) : fetch s = takeInput x (s.setInputs rest) := by
  simp [fetch, hin, firstReady_head h]

/-- Settles O51: the first offer is taken, and decoding sees only the configuration. -/
theorem stepRunsTheOfferedInstruction : Obligations.StepRunsTheOfferedInstruction := by
  refine ⟨fun s x rest i hin hready hdec => ?_, fun s hin => ?_⟩
  · have hfetch : fetch s = .instr i (s.setInputs rest) :=
      (fetch_head hin (isHeld_eq_false hready)).trans (takeInput_decoded hdec)
    simp only [step, hfetch]
  · simp [step, fetch, hin, firstReady]

end Sys2Proof.Machine
end

section
/-! SUPPORT. In the invariant no access leaves the bounds of R40, so every instruction of an unfaulted block answers a next state (spec/00_scope.md R12, spec/20_memory.md R40, spec/60_exceptions.md R123). -/

namespace Sys2Proof.Machine

/-- The invariant does not speak of what the environment offers. -/
theorem BlockInv.setInputs {s : State} (h : BlockInv s) (v : List Input) : BlockInv (s.setInputs v) where
  canonical := h.canonical
  inside := h.inside
  bounded := h.bounded
  valued := h.valued
  idle := h.idle
  present hp := by
    obtain ⟨hdr, payload, hport, hrest⟩ := h.present hp
    refine ⟨hdr, payload, ?_, hrest⟩
    rw [← hport]
    simp only [framePort, State.setInputs_phase,
      frontFrame_congr (s := s) (t := s.setInputs v) rfl rfl rfl]
  faults := h.faults

/-- What the frame port shows is the header at the front of the bytes held (R34). -/
theorem framePort_len {s : State} {bs payload : List Byte} {hdr : Header} (h : Holds s bs)
    (hl : hdrLen ≤ bs.length) (hport : framePort s = some (hdr, payload)) : hdr.len = frontLen s.cfg bs := by
  have hfront : s.frontFrame = .ok (hdr, payload) := by
    unfold framePort at hport
    split at hport
    · cases hf : s.frontFrame <;> simp_all [Except.toOption]
    · cases hport
  obtain ⟨hb, hread, hdec, -⟩ := frontFrame_ok hfront
  rw [readBytes_of_holds h 0 hdrLen (by omega), List.drop_zero] at hread
  cases hread
  rw [hdrLen_eq] at hl hdec
  exact hdrDecode_len (hdrDecode_take hl ▸ hdec)

/-- In the invariant a presented frame is whole, so its RELEASE answers (R30, R111). -/
theorem releaseFrame_total {s : State} (hinv : BlockInv s) (hp : s.phase = .present) :
    ∃ t, releaseFrame s = .next t := by
  obtain ⟨bs, hbs⟩ := holds_of_valued hinv.valued
  obtain ⟨hdr, payload, hport, -, hwhole, -⟩ := hinv.present hp
  rw [hbs.1] at hwhole
  have hl : hdrLen ≤ bs.length := by omega
  obtain ⟨t, ht, -⟩ := releaseFrame_of_holds hbs hinv.bounded hl (framePort_len hbs hl hport ▸ hwhole)
  exact ⟨t, ht⟩

/-- A FILL in IDLE answers: what passes its checks fits the buffer (R102). -/
theorem fillIdle_total {s : State} {bs : List Byte} (h : Holds s bs) (hp : s.phase = .idle) (r : Int)
    (data : List Byte) : ∃ t, fillIdle r data s = .next t := by
  unfold fillIdle
  split
  · exact ⟨_, rfl⟩
  · split
    · exact ⟨_, rfl⟩
    · split
      · exact ⟨_, rfl⟩
      · obtain ⟨t, ht, -⟩ := append_of_holds (data := data) h hp (by unfold State.space at *; omega)
        exact ⟨t, ht⟩

/-- What is held in PRESENT and answers in IDLE answers in every phase after INIT. -/
theorem unlessPresent_total {s : State} {k : State → Out} (hp : s.phase ≠ .uninit)
    (hk : s.phase = .idle → ∃ t, k s = .next t) : ∃ t, unlessPresent s k = .next t := by
  unfold unlessPresent
  split
  · exact ⟨s, rfl⟩
  · exact hk (by cases e : s.phase <;> simp_all)

/-- A frame row's own effect answers in every phase after INIT. -/
theorem deliver_total {s : State} (hinv : BlockInv s) (hp : s.phase ≠ .uninit) (kind : BitVec 4) (d : BitVec 12)
    (b : FrameBody) : ∃ t, deliver kind d b s = .next t := by
  obtain ⟨bs, hbs⟩ := holds_of_valued hinv.valued
  refine unlessPresent_total hp fun hidle => ?_
  exact fillIdle_total (hbs.congr (State.putBack_rcv ..) (State.putBack_buf ..))
    ((State.putBack_phase ..).trans hidle) _ _

/-- In the invariant every instruction's own effect answers in every phase after INIT. -/
theorem ownEffect_total {s : State} (hinv : BlockInv s) (hp : s.phase ≠ .uninit) (i : Instr) :
    ∃ t, ownEffect i s = .next t := by
  cases i
  case init => exact ⟨_, rfl⟩
  case fill r data =>
    obtain ⟨bs, hbs⟩ := holds_of_valued hinv.valued
    exact unlessPresent_total hp fun hidle => fillIdle_total hbs hidle r data
  case release =>
    simp only [ownEffect]
    split
    · exact releaseFrame_total hinv ‹_›
    · exact ⟨_, rfl⟩
  case decode h =>
    simp only [ownEffect, withHeader]
    split <;> exact ⟨_, rfl⟩
  case encode =>
    simp only [ownEffect, withEncoded]
    split <;> exact ⟨_, rfl⟩
  case seqNext => exact ⟨_, rfl⟩
  all_goals exact deliver_total hinv hp _ _ _

/-- In the invariant every instruction of an unfaulted block answers (R12, R123). -/
theorem exec_total {s : State} (hinv : BlockInv s) (hf : s.fault = none) (i : Instr) : ∃ t, exec i s = .next t := by
  by_cases hp : s.phase = .uninit
  · by_cases hi : i = .init
    · subst hi
      rw [exec_init, unlessFaulted_none hf]
      exact ⟨_, rfl⟩
    · rw [exec_checked hi, whenInitialised_uninit hf hp]
      exact ⟨_, rfl⟩
  · rw [exec_ready hf hp]
    exact ownEffect_total hinv hp i

/-- In the invariant every step of an unfaulted block answers. -/
theorem step_total {s : State} (hinv : BlockInv s) (hf : s.fault = none) : ∃ t, step s = .next t := by
  unfold step
  split
  case h_1 => exact ⟨s, rfl⟩
  case h_2 i u hfetch =>
    obtain ⟨left, rfl⟩ := fetch_state (.inl ⟨i, hfetch⟩)
    exact exec_total (hinv.setInputs left) hf i
  case h_3 code u hfetch =>
    obtain ⟨left, rfl⟩ := fetch_state (.inr ⟨code, hfetch⟩)
    rw [illegalCommand, unlessFaulted_none (s := s.setInputs left) hf]
    exact ⟨_, rfl⟩

/-- Settles O47: in the invariant the frame RELEASE reads is whole and what FILL appends fits the buffer. -/
theorem unfaultedBlockGoesOn : Obligations.UnfaultedBlockGoesOn :=
  fun _ hinv hf => ⟨exec_total hinv hf, step_total hinv hf⟩

end Sys2Proof.Machine
end

section
/-! SUPPORT. What the output ports show, read off the phase (spec/10_state.md R31 to R33). -/

namespace Sys2Proof.Machine

/-- Settles O15: the fault register is looked at first, then the phase, then `rcv` in IDLE. -/
theorem statusPortShowsPhase : Obligations.StatusPortShowsPhase := by
  refine ⟨fun s => ⟨fun hf => ?_, fun hf hp => ?_, fun hf hp hr => ?_, fun hf hp hr => ?_, fun hf hp => ?_⟩, by decide⟩
  · simp [statusPort, Option.isSome_iff_ne_none.mpr hf]
  · simp [statusPort, hf, hp]
  · simp [statusPort, hf, hp, hr]
  · simp [statusPort, hf, hp, Nat.not_lt.mpr hr]
  · simp [statusPort, hf, hp]

/-- SCAN leaves the phase as it is or presents a frame, so it does not go back to UNINIT. -/
theorem scan_phase_ne_uninit {s t : State} (h : scan s = .next t) (hp : s.phase ≠ .uninit) : t.phase ≠ .uninit := by
  obtain ⟨-, -, -, -, -, -, ⟨hphase, -⟩ | hphase⟩ := scan_frame h
  · rwa [hphase]
  · simp [hphase]

/-- Only power-up is before INIT: no outcome of an instruction goes back to UNINIT (R22, R33). -/
theorem Answers.phase_ne_uninit {s t : State} {i : Instr} (h : Answers s i t) (hp : i = .init ∨ s.phase ≠ .uninit) :
    t.phase ≠ .uninit := by
  cases h
  case init => simp
  case beforeInit hu hi => exact absurd hu (hp.resolve_left hi)
  case fill hidle _ _ _ happend => exact scan_phase_ne_uninit (append_next happend).2 (by simp [hidle])
  case row hidle _ _ happend => exact scan_phase_ne_uninit (append_next happend).2 (by simp [hidle])
  case release hrelease =>
    obtain ⟨_, _, _, _, _, _, _, hscan⟩ := releaseFrame_next hrelease
    exact scan_phase_ne_uninit hscan (by simp)
  all_goals simp_all

/-- Settles O16: the three ports are hidden in UNINIT alone, and no instruction goes back there. -/
theorem portsShowRegistersAfterInit : Obligations.PortsShowRegistersAfterInit := by
  refine ⟨fun s hp => ?_, fun s t i h hp => (exec_answers h).2.phase_ne_uninit hp⟩
  simp [seqInPort, seqOutPort, spacePort, State.space, hp]

end Sys2Proof.Machine
end

section
/-! SUPPORT. What the invariant says of the bytes the block holds, in IDLE and in PRESENT (spec/10_state.md R29, R30, R34). -/

namespace Sys2Proof.Machine

/-- In IDLE the bytes held are less than a header, or less than the admitted frame their header declares (R29). -/
theorem BlockInv.idle_bytes {s : State} {bs : List Byte} (hinv : BlockInv s) (h : Holds s bs) (hp : s.phase = .idle) :
    bs.length < hdrLen ∨ (frontLen s.cfg bs).toNat ≤ s.cfg.maxPayload.val ∧
      bs.length < hdrLen + (frontLen s.cfg bs).toNat := by
  rw [← h.1]
  by_cases hl : s.rcv < hdrLen
  · exact .inl hl
  · obtain hshort | ⟨len0, hw, hmax, hpart⟩ := hinv.idle hp
    · exact .inl hshort
    · rw [readWord_of_holds h (h.1 ▸ Nat.le_of_not_lt hl)] at hw
      cases hw
      exact .inr ⟨hmax, hpart⟩

/-- Settles O48: a frame that is admitted and not yet whole leaves room in a buffer of MAX_FRAME bytes. -/
theorem idleHasSpace : Obligations.IdleHasSpace := by
  intro s bs hinv h hp
  have hbytes := hinv.idle_bytes h hp
  have hroom : s.rcv < s.cfg.maxFrame := by
    rw [h.1]
    unfold Config.maxFrame
    omega
  exact ⟨hbytes, hroom, Nat.sub_pos_of_lt hroom, by simp [spacePort, hp]⟩

/-- Outside PRESENT the frame port has no value (R34). -/
theorem framePort_none {s : State} (hp : s.phase ≠ .present) : framePort s = none := if_neg hp

/-- In PRESENT the frame port shows the frame at the front of the buffer (R34). -/
theorem framePort_of_frontFrame {s : State} {frame : Header × List Byte} (hp : s.phase = .present)
    (h : s.frontFrame = .ok frame) : framePort s = some frame := by
  simp [framePort, hp, h, Except.toOption]

/-- A whole frame at the front of the bytes held is read as the header they decode to and its payload (R34, R65). -/
theorem frontFrame_of_whole {s : State} {bs : List Byte} (h : Holds s bs) (hl : hdrLen ≤ bs.length)
    (hwhole : hdrLen + (frontLen s.cfg bs).toNat ≤ bs.length) :
    ∃ hdr, hdrDecode s.cfg (bs.take hdrLen) = some hdr ∧ hdr.len = frontLen s.cfg bs ∧
      s.frontFrame = .ok (hdr, (bs.drop hdrLen).take hdr.len.toNat) := by
  obtain ⟨hdr, hdec, -⟩ := hdrDecode_some (c := s.cfg) hl
  have hlen := hdrDecode_len hdec
  exact ⟨hdr, (hdrDecode_take hl).trans hdec, hlen, frontFrame_of_holds h hdec (by rwa [hlen])⟩

/-- Settles O49: the header the port shows is the one the held bytes decode to, as both are read from them. -/
theorem presentedFrameIsTheLastReported : Obligations.PresentedFrameIsTheLastReported := by
  refine fun s bs hinv h => ⟨fun hp => ?_, framePort_none⟩
  obtain ⟨hdr, payload, hport, hmax, hwhole, -, hlast⟩ := hinv.present hp
  have hl : hdrLen ≤ bs.length := by rw [← h.1]; omega
  have hlen : hdr.len = frontLen s.cfg bs := framePort_len h hl hport
  obtain ⟨front, hdec, -, hfront⟩ := frontFrame_of_whole h hl (by rwa [← hlen, ← h.1])
  have hshown := framePort_of_frontFrame hp hfront
  obtain ⟨rfl, rfl⟩ : front = hdr ∧ (bs.drop hdrLen).take front.len.toNat = payload := by
    simpa using hshown.symm.trans hport
  exact ⟨front, hdec, h.1 ▸ hl, hlen, hmax, hwhole, hshown, hlast⟩

end Sys2Proof.Machine
end

section
/-! SUPPORT. The frames and faults a trace records, over the entries appended to it (spec/60_exceptions.md R120, R122). -/

namespace Sys2Proof.Machine

theorem framesOf_append (xs ys : List TraceEntry) : framesOf (xs ++ ys) = framesOf xs ++ framesOf ys := by
  fun_induction framesOf xs <;> simp_all [framesOf]

theorem faultsOf_append (xs ys : List TraceEntry) : faultsOf (xs ++ ys) = faultsOf xs ++ faultsOf ys := by
  fun_induction faultsOf xs <;> simp_all [faultsOf]

@[simp] theorem faultsOf_append_event (xs : List TraceEntry) (e : Event) :
    faultsOf (xs ++ [.event e]) = faultsOf xs := by
  simp [faultsOf_append, faultsOf]

@[simp] theorem faultsOf_append_fault (xs : List TraceEntry) (f : FaultRecord) :
    faultsOf (xs ++ [.fault f]) = faultsOf xs ++ [f] := by
  simp [faultsOf_append, faultsOf]

@[simp] theorem framesOf_append_fault (xs : List TraceEntry) (f : FaultRecord) :
    framesOf (xs ++ [.fault f]) = framesOf xs := by
  simp [framesOf_append, framesOf]

@[simp] theorem framesOf_append_frame (xs : List TraceEntry) (hdr : Header) (payload : List Byte) :
    framesOf (xs ++ [.event (.frame hdr payload)]) = framesOf xs ++ [(hdr, payload)] := by
  simp [framesOf_append, framesOf]

end Sys2Proof.Machine
end

section
/-! SUPPORT. The invariant of the block is kept by every outcome of an instruction, and so by every step (spec/10_state.md R23, R27 to R30; spec/41_sequence.md R91). -/

namespace Sys2Proof.Machine

/-- The clauses of the invariant on the buffer alone: they hold where SCAN starts, while those on IDLE (R29) and
PRESENT (R30) are what SCAN establishes. -/
structure BufferInv (s : State) : Prop where
  canonical : s.buf.wf
  inside : ∀ c ∈ s.buf, c.1 < s.cfg.maxFrame
  bounded : s.rcv ≤ s.cfg.maxFrame
  valued : ∀ a, a < s.rcv → (s.buf.read a).isSome

theorem BlockInv.buffer {s : State} (h : BlockInv s) : BufferInv s := ⟨h.canonical, h.inside, h.bounded, h.valued⟩

/-- An update of other fields keeps the buffer's clauses. -/
theorem BufferInv.congr {s t : State} (h : BufferInv s) (hcfg : t.cfg = s.cfg) (hrcv : t.rcv = s.rcv)
    (hbuf : t.buf = s.buf) : BufferInv t where
  canonical := hbuf ▸ h.canonical
  inside := by rw [hbuf, hcfg]; exact h.inside
  bounded := by rw [hrcv, hcfg]; exact h.bounded
  valued := by rw [hrcv, hbuf]; exact h.valued

theorem BufferInv.setPhase {s : State} (h : BufferInv s) (v : Phase) : BufferInv (s.setPhase v) := h.congr rfl rfl rfl

/-- With no valid byte only the cells count. -/
theorem BufferInv.setRcv_zero {s : State} (h : BufferInv s) : BufferInv (s.setRcv 0) :=
  ⟨h.canonical, h.inside, Nat.zero_le _, fun _ ha => absurd ha (Nat.not_lt_zero _)⟩

/-- Bytes stored behind valid ones, inside the buffer, are valid with them: FILL stores at `rcv` (R104), RELEASE at
address 0 (R112). -/
theorem BufferInv.store {s : State} (h : BufferInv s) {a : Nat} {bs : List Byte} (ha : a ≤ s.rcv)
    (hfit : a + bs.length ≤ s.cfg.maxFrame) :
    BufferInv ((s.setBuf (s.buf.writeBytes a bs)).setRcv (a + bs.length)) where
  canonical := Memory.wf_writeBytes h.canonical a bs
  inside c hc := by
    obtain ⟨-, hlt⟩ | hold := Memory.mem_writeBytes hc
    · exact Nat.lt_of_lt_of_le hlt hfit
    · exact h.inside c hold
  bounded := hfit
  valued c hc := by
    simp only [State.setRcv_rcv, State.setRcv_buf, State.setBuf_buf, Memory.read_writeBytes] at hc ⊢
    split
    · simp; omega
    · exact h.valued c (by omega)

/-- An IDLE state that meets R29 has nothing to show for PRESENT. -/
theorem BufferInv.blockInv_of_idle {s : State} (h : BufferInv s) (hp : s.phase = .idle)
    (hidle : s.rcv < hdrLen ∨
      ∃ len0, s.readWord 8 = .ok len0 ∧ len0.toNat ≤ s.cfg.maxPayload.val ∧ s.rcv < hdrLen + len0.toNat)
    (hfaults : (faultsOf s.trace).map FaultRecord.code = s.fault.toList) : BlockInv s where
  canonical := h.canonical
  inside := h.inside
  bounded := h.bounded
  valued := h.valued
  idle _ := hidle
  present hpresent := by simp [hp] at hpresent
  faults := hfaults

/-- The invariant reads `seq_out` and the offers nowhere, and of the trace only the frames and faults it records. -/
theorem BlockInv.congr {s t : State} (h : BlockInv s) (hcfg : t.cfg = s.cfg) (hphase : t.phase = s.phase)
    (hrcv : t.rcv = s.rcv) (hbuf : t.buf = s.buf) (hseq : t.seqIn = s.seqIn)
    (hframes : framesOf t.trace = framesOf s.trace)
    (hfaults : (faultsOf t.trace).map FaultRecord.code = t.fault.toList) : BlockInv t := by
  have hbuffer := h.buffer.congr hcfg hrcv hbuf
  have hport : framePort t = framePort s := by simp only [framePort, hphase, frontFrame_congr hcfg hrcv hbuf]
  exact
    { canonical := hbuffer.canonical
      inside := hbuffer.inside
      bounded := hbuffer.bounded
      valued := hbuffer.valued
      idle := by simpa only [hphase, hrcv, hcfg, readWord_congr hcfg hrcv hbuf] using h.idle
      present := by simpa only [hphase, hrcv, hcfg, hport, hseq, hframes] using h.present
      faults := hfaults }

/-- An event that reports no frame keeps the invariant. -/
theorem BlockInv.logEvent {s : State} (h : BlockInv s) {e : Event} (he : framesOf [.event e] = []) :
    BlockInv (s.log (.event e)) :=
  h.congr rfl rfl rfl rfl rfl (by simp [framesOf_append, he]) (by simpa using h.faults)

/-- A fault raised in an unfaulted block keeps the invariant: it is the one the register then holds (R28, R123). -/
theorem BlockInv.raised {s : State} (h : BlockInv s) (hf : s.fault = none) (f : FaultRecord) :
    BlockInv (s.raised f) := by
  have hnone : faultsOf s.trace = [] := by simpa [hf] using h.faults
  exact h.congr rfl rfl rfl rfl rfl (by simp) (by simp [hnone])

theorem BlockInv.putBack {s : State} (h : BlockInv s) (v : List Byte) : BlockInv (s.putBack v) := by
  unfold State.putBack
  split
  · exact h
  · exact h.setInputs _

theorem BlockInv.setSeqOut {s : State} (h : BlockInv s) (v : Word) : BlockInv (s.setSeqOut v) :=
  h.congr rfl rfl rfl rfl rfl rfl h.faults

/-- The header of a whole front frame declares the length at address 8 (R47, R65). -/
theorem frontFrame_len {s : State} (h : BufferInv s) {len0 : Word} (hwhole : hdrLen + len0.toNat ≤ s.rcv)
    (hw : s.readWord 8 = .ok len0) {hdr : Header} {payload : List Byte} (hfront : s.frontFrame = .ok (hdr, payload)) :
    hdr.len = len0 := by
  obtain ⟨bs, hbs⟩ := holds_of_valued h.valued
  have hl : hdrLen ≤ bs.length := by rw [← hbs.1]; omega
  obtain rfl : frontLen s.cfg bs = len0 := by simpa using (readWord_of_holds hbs hl).symm.trans hw
  obtain ⟨front, -, hlen, hread⟩ := frontFrame_of_whole hbs hl (hbs.1 ▸ hwhole)
  obtain ⟨rfl, -⟩ : front = hdr ∧ _ := by simpa using hread.symm.trans hfront
  exact hlen

/-- SCAN establishes the invariant: its four outcomes are the two disjuncts of R29, the discard, and R30. -/
theorem scan_blockInv {s t : State} (hbuf : BufferInv s) (hp : s.phase = .idle)
    (hfaults : (faultsOf s.trace).map FaultRecord.code = s.fault.toList) (h : scan s = .next t) : BlockInv t := by
  obtain ⟨hshort, rfl⟩ | ⟨-, len0, hw, ⟨-, rfl⟩ | ⟨hmax, hpart, rfl⟩ | ⟨hmax, hwhole, hdr, payload, hfront, rfl⟩⟩ :=
    scan_next h
  · exact (hbuf.blockInv_of_idle hp (.inl hshort) hfaults).logEvent rfl
  · exact (hbuf.setRcv_zero.blockInv_of_idle hp (.inl (by simp)) hfaults).logEvent rfl
  · exact (hbuf.blockInv_of_idle hp (.inr ⟨len0, hw, hmax, hpart⟩) hfaults).logEvent rfl
  · have hlen := frontFrame_len hbuf hwhole hw hfront
    have hsame := frontFrame_congr (s := s)
      (t := ((s.setSeqIn hdr.seq).setPhase .present).log (.event (.frame hdr payload))) rfl rfl rfl
    have hport := framePort_of_frontFrame rfl (hsame.trans hfront)
    exact
      { canonical := hbuf.canonical
        inside := hbuf.inside
        bounded := hbuf.bounded
        valued := hbuf.valued
        idle := by simp
        present := fun _ => ⟨hdr, payload, hport, hlen ▸ hmax, hlen ▸ hwhole, rfl, by simp⟩
        faults := by simpa using hfaults }

/-- An append in IDLE keeps the invariant (R104, R105). -/
theorem append_blockInv {s t : State} {data : List Byte} (hinv : BlockInv s) (hp : s.phase = .idle)
    (h : append data s = .next t) : BlockInv t := by
  obtain ⟨hfit, hscan⟩ := append_next h
  exact scan_blockInv (hinv.buffer.store (Nat.le_refl _) hfit) hp hinv.faults hscan

/-- A RELEASE keeps the invariant: the leftover is inside the buffer from address 0 on (R111, R112). -/
theorem releaseFrame_blockInv {s t : State} (hinv : BlockInv s) (h : releaseFrame s = .next t) : BlockInv t := by
  obtain ⟨len0, left, -, -, -, hleft, hfit, hscan⟩ := releaseFrame_next h
  have hstore := hinv.buffer.store (Nat.zero_le _) (bs := left) (by rwa [Nat.zero_add])
  rw [Nat.zero_add, hleft] at hstore
  exact scan_blockInv (hstore.setPhase .idle) rfl hinv.faults hscan

/-- Every outcome of an instruction of an unfaulted block keeps the invariant. -/
theorem Answers.blockInv {s t : State} {i : Instr} (h : Answers s i t) (hf : s.fault = none) (hinv : BlockInv s) :
    BlockInv t := by
  cases h
  case init =>
    have hempty : BufferInv (((((s.setPhase .idle).setRcv 0).setBuf []).setSeqIn 0#16).setSeqOut 0#16) :=
      ⟨Memory.wf_nil, by simp, Nat.zero_le _, by simp⟩
    exact (hempty.blockInv_of_idle rfl (.inl (by simp)) hinv.faults).logEvent rfl
  case held => exact hinv
  case fill hp _ _ _ happend => exact append_blockInv hinv hp happend
  case row hp _ _ happend => exact append_blockInv (hinv.putBack _) ((State.putBack_phase ..).trans hp) happend
  case release hrelease => exact releaseFrame_blockInv hinv hrelease
  case rowNoData => exact (hinv.putBack _).logEvent rfl
  case seqNext => exact (hinv.setSeqOut _).logEvent rfl
  case noData | decoded | encoded => exact hinv.logEvent rfl
  all_goals exact hinv.raised hf _

/-- Settles O45: the state an input runs in differs in the offers alone, and every outcome keeps the invariant. -/
theorem everyStepKeepsTheInvariant : Obligations.EveryStepKeepsTheInvariant := by
  intro s t hinv h
  obtain ⟨-, rfl⟩ | ⟨i, u, hfetch, hexec⟩ | ⟨code, u, hfetch, hill⟩ := step_next h
  · exact hinv
  · obtain ⟨left, rfl⟩ := fetch_state (.inl ⟨i, hfetch⟩)
    obtain ⟨hf, hanswers⟩ := exec_answers hexec
    exact hanswers.blockInv hf (hinv.setInputs left)
  · obtain ⟨left, rfl⟩ := fetch_state (.inr ⟨code, hfetch⟩)
    obtain ⟨hf, -⟩ := unlessFaulted_next hill
    rw [illegalCommand_next hill]
    exact (hinv.setInputs left).raised hf _

end Sys2Proof.Machine
end

section
/-! SUPPORT. The canonical form of the buffer is kept by every outcome of an instruction, and so by every step (spec/20_memory.md R40). -/

namespace Sys2Proof.Machine

/-- An append writes bytes alone, so the cells stay canonical (R104). -/
theorem append_canonical {s t : State} {data : List Byte} (hwf : s.buf.wf) (h : append data s = .next t) :
    t.buf.wf := by
  obtain ⟨-, -, -, -, hbuf, -⟩ := append_frame h
  exact hbuf ▸ Memory.wf_writeBytes hwf _ _

/-- The leftover shift writes bytes alone, so the cells stay canonical (R112). -/
theorem releaseFrame_canonical {s t : State} (hwf : s.buf.wf) (h : releaseFrame s = .next t) : t.buf.wf := by
  obtain ⟨_, left, _, _, _, _, _, hscan⟩ := releaseFrame_next h
  obtain ⟨-, -, -, -, hbuf, -⟩ := scan_frame hscan
  exact hbuf ▸ Memory.wf_writeBytes hwf 0 left

/-- Every outcome of an instruction keeps the canonical form: INIT empties the buffer, the appends and RELEASE write
bytes, and no other outcome touches a cell. -/
theorem Answers.canonical {s t : State} {i : Instr} (h : Answers s i t) (hwf : s.buf.wf) : t.buf.wf := by
  cases h
  case init => exact Memory.wf_nil
  case fill happend => exact append_canonical hwf happend
  case row happend => exact append_canonical (by rwa [State.putBack_buf]) happend
  case release hrelease => exact releaseFrame_canonical hwf hrelease
  case rowNoData => rwa [State.log_buf, State.putBack_buf]
  all_goals exact hwf

/-- Settles O46: the input runs on the same cells, and every outcome keeps their canonical form. -/
theorem everyStepKeepsMemoryCanonical : Obligations.EveryStepKeepsMemoryCanonical := by
  intro s t hwf h
  obtain ⟨-, rfl⟩ | ⟨i, u, hfetch, hexec⟩ | ⟨code, u, hfetch, hill⟩ := step_next h
  · exact hwf
  · obtain ⟨left, rfl⟩ := fetch_state (.inl ⟨i, hfetch⟩)
    exact (exec_answers hexec).2.canonical hwf
  · obtain ⟨left, rfl⟩ := fetch_state (.inr ⟨code, hfetch⟩)
    rw [illegalCommand_next hill]
    exact hwf

end Sys2Proof.Machine
end

section
/-! SUPPORT. The Transport's octets are delivered by FILL, whether or not they are one frame (spec/42_reassembler.md R101, R150; assumption log 7). -/

namespace Sys2Proof.Machine

/-- Octets that decode are those of the frame row they decode to: no bit of them is dropped (R60, R66). -/
theorem decodeFrame_row {c : Config} {octets : List Byte} {i : Instr} (h : decodeFrame c octets = .ok i) :
    ∃ kind d b, (i, kind) ∈ frameRows d b ∧ frameOctets c.wireOrder kind d b = octets := by
  unfold decodeFrame at h
  split at h
  · simp only at h
    split at h
    · cases h
      refine ⟨_, _, _, frameOfOpdev_row _ _, ?_⟩
      simp only [frameOctets, headerOctets, opdev_join, bytes16_word16, List.cons_append, List.nil_append]
    · cases h
  · cases h

/-- In IDLE a frame row is the FILL of as many of its octets as the block asks for; the rest is put back. -/
theorem exec_row_idle {i : Instr} {kind : BitVec 4} {d : BitVec 12} {b : FrameBody} {s : State}
    (hrow : (i, kind) ∈ frameRows d b) (hf : s.fault = none) (hp : s.phase = .idle) :
    exec i s = exec (.fill (((rowOctets s kind d b).take s.space).length : Nat) ((rowOctets s kind d b).take s.space))
      (s.putBack ((rowOctets s kind d b).drop s.space)) := by
  obtain ⟨-, -, -, -, heffect⟩ := frameRow_spec hrow s.cfg
  rw [exec_ready hf (by simp [hp]), exec_ready (by simp [hf]) (by simp [hp]), heffect]
  simp [deliver, ownEffect, unlessPresent, hp]

/-- In IDLE a stream that stands first is delivered by one FILL of at most `space` octets (R101, R150). -/
theorem step_stream {s : State} {octets : List Byte} {more : List Input} (hf : s.fault = none) (hp : s.phase = .idle)
    (hin : s.inputs = .stream octets :: more) :
    step s = exec (.fill ((octets.take s.space).length : Nat) (octets.take s.space))
      ((s.setInputs more).putBack (octets.drop s.space)) := by
  have hfetch : fetch s = takeInput (.stream octets) (s.setInputs more) :=
    fetch_head hin (isHeld_eq_false (.inr (.inl (by simp [hp]))))
  cases hdec : decodeFrame s.cfg octets with
  | error e =>
    simp [step, hfetch, takeInput, decodeInput, hdec, hp, State.space]
  | ok i =>
    obtain ⟨kind, d, b, hrow, rfl⟩ := decodeFrame_row hdec
    have htake := takeInput_decoded (s := s.setInputs more) (x := .stream (rowOctets s kind d b)) hdec
    rw [step, hfetch, htake]
    exact exec_row_idle (s := s.setInputs more) hrow hf hp

/-- In IDLE the octets within reach of `space` are appended to the bytes held, and all of them scanned (R104). -/
theorem step_stream_scanned {s : State} {held octets : List Byte} {more : List Input} (hf : s.fault = none)
    (hp : s.phase = .idle) (hholds : Holds s held) (hin : s.inputs = .stream octets :: more)
    (hne : octets.take s.space ≠ []) :
    ∃ t, step s = .next t ∧
      Scanned ((s.setInputs more).putBack (octets.drop s.space)) t (held ++ octets.take s.space) := by
  have hreach : (octets.take s.space).length ≤ s.space := by simp
  have hsome : 0 < (octets.take s.space).length := List.length_pos_iff.mpr hne
  obtain ⟨t, happend, -, hscan⟩ := append_of_holds (s := (s.setInputs more).putBack (octets.drop s.space))
    (data := octets.take s.space) (hholds.congr (by simp) (by simp)) (by simp [hp])
    (by simp only [State.putBack_rcv, State.setInputs_rcv, State.putBack_cfg, State.setInputs_cfg]
        unfold State.space at hreach hsome ⊢
        omega)
  refine ⟨t, ?_, hscan⟩
  rw [step_stream hf hp hin, exec_ready (by simp [hf]) (by simp [hp])]
  simp only [ownEffect, unlessPresent, State.putBack_phase, State.setInputs_phase, hp, reduceCtorEq, if_false]
  rw [fillIdle_append hne (by simp [State.space])]
  exact happend

/-- The offer of the octets the Transport still holds: none where it holds none. -/
def undelivered (rest : List Byte) : List Input := if rest = [] then [] else [.stream rest]

@[simp] theorem undelivered_nil : undelivered [] = [] := rfl

theorem undelivered_of_ne_nil {rest : List Byte} (h : rest ≠ []) : undelivered rest = [.stream rest] := if_neg h

@[simp] theorem State.putBack_inputs (s : State) (rest : List Byte) :
    (s.putBack rest).inputs = undelivered rest ++ s.inputs := by
  unfold State.putBack undelivered
  split <;> rfl

/-- In PRESENT the octets still to come are held, and the RELEASE behind them takes the step (R146). -/
theorem step_release {s : State} {rest : List Byte} {more : List Input} (hf : s.fault = none)
    (hp : s.phase = .present) (hin : s.inputs = undelivered rest ++ .command { code := 0b0011#4 } :: more) :
    step s = releaseFrame (s.setInputs (undelivered rest ++ more)) := by
  have hfree : isHeld s (.command { code := 0b0011#4 }) = false :=
    isHeld_eq_false (.inr (.inr ⟨_, rfl, by decide⟩))
  have hready : firstReady s s.inputs = some (.command { code := 0b0011#4 }, undelivered rest ++ more) := by
    rw [hin]
    by_cases hne : rest = []
    · subst hne
      exact firstReady_head hfree more
    · rw [undelivered_of_ne_nil hne]
      exact firstReady_held (by simp [isHeld, isFill, hf, hp]) (firstReady_head hfree more)
  have hfetch : fetch s = .instr .release (s.setInputs (undelivered rest ++ more)) := by
    simp [fetch, hready, takeInput, decodeInput, decodeCommand]
  rw [step, hfetch]
  simp only
  rw [exec_ready (by simp [hf]) (by simp [hp])]
  exact if_pos hp

end Sys2Proof.Machine
end

section
/-! SUPPORT. What SCAN makes of bytes that begin with a whole admitted frame, or are the beginning of one (spec/42_reassembler.md R105 to R109). -/

namespace Sys2Proof.Machine

/-- A whole frame has a header. -/
theorem WholeFrame.hdrLen_le {c : Config} {f : List Byte} (h : WholeFrame c f) : hdrLen ≤ f.length := by
  rw [h.1]; exact Nat.le_add_right ..

/-- A whole admitted frame fits the buffer (R6, R65). -/
theorem WholeFrame.length_le {c : Config} {f : List Byte} (h : WholeFrame c f) : f.length ≤ c.maxFrame := by
  rw [h.1]; exact Nat.add_le_add_left h.2 _

/-- The declared length is read from the first ten bytes. -/
theorem frontLen_of_prefix {c : Config} {bs cs : List Byte} (hl : hdrLen ≤ bs.length) (h : bs <+: cs) :
    frontLen c cs = frontLen c bs := by
  obtain ⟨more, rfl⟩ := h
  rw [hdrLen_eq] at hl
  rw [frontLen, frontLen, List.getElem?_append_left (by omega), List.getElem?_append_left (by omega)]

/-- The header is read from the first twelve bytes (R80). -/
theorem hdrDecode_of_prefix {c : Config} {bs cs : List Byte} (hl : hdrLen ≤ bs.length) (h : bs <+: cs) :
    hdrDecode c cs = hdrDecode c bs := by
  rw [← hdrDecode_take hl, ← hdrDecode_take (hl.trans h.length_le)]
  obtain ⟨more, rfl⟩ := h
  rw [List.take_append_of_le_length hl]

/-- From `s` to `t` exactly the frame of the octets `f` is reported, with its header and payload (R109, R110). -/
def Reports (s t : State) (f : List Byte) : Prop :=
  ∃ hdr, hdrDecode s.cfg f = some hdr ∧ framesOf t.trace = framesOf s.trace ++ [(hdr, f.drop hdrLen)]

theorem Scanned.cfg_eq {s t : State} {bs : List Byte} (h : Scanned s t bs) : t.cfg = s.cfg := h.1

/-- SCAN presents the whole admitted frame at the front of the bytes held (R109). -/
theorem Scanned.whole {s t : State} {bs f : List Byte} (h : Scanned s t bs) (hf : WholeFrame s.cfg f)
    (hpre : f <+: bs) : Holds t bs ∧ t.phase = .present ∧ Reports s t f := by
  have hlen : frontLen s.cfg bs = frontLen s.cfg f := frontLen_of_prefix hf.hdrLen_le hpre
  have hle : f.length ≤ bs.length := hpre.length_le
  have hwhole := hf.1
  obtain ⟨-, -, -, -, h⟩ := h
  rw [hlen, if_neg (Nat.not_lt.mpr (hf.hdrLen_le.trans hle)), if_neg (Nat.not_lt.mpr hf.2),
    if_neg (by rw [← hwhole]; exact Nat.not_lt.mpr hle)] at h
  obtain ⟨hp, hholds, hdr, hdec, -, htrace⟩ := h
  have hpayload : (bs.drop hdrLen).take (frontLen s.cfg f).toNat = f.drop hdrLen := by
    obtain ⟨more, rfl⟩ := hpre
    rw [List.drop_append_of_le_length hf.hdrLen_le, List.take_left' (by rw [List.length_drop]; omega)]
  refine ⟨hholds, hp, hdr, ?_, ?_⟩
  · rw [← hdec, hdrDecode_of_prefix hf.hdrLen_le hpre]
  · rw [htrace, hpayload, framesOf_append_frame]

/-- SCAN waits for the rest of an admitted frame of which only the beginning is held (R106, R108). -/
theorem Scanned.part {s t : State} {bs f : List Byte} (h : Scanned s t bs) (hf : WholeFrame s.cfg f)
    (hpre : bs <+: f) (hlt : bs.length < f.length) :
    Holds t bs ∧ t.phase = .idle ∧ framesOf t.trace = framesOf s.trace := by
  obtain ⟨-, -, -, -, h⟩ := h
  by_cases hl : bs.length < hdrLen
  · rw [if_pos hl] at h
    obtain ⟨hp, hholds, -, htrace⟩ := h
    exact ⟨hholds, hp, by simp [htrace, framesOf_append, framesOf]⟩
  · have hlen : frontLen s.cfg f = frontLen s.cfg bs := frontLen_of_prefix (Nat.le_of_not_lt hl) hpre
    rw [← hlen, if_neg hl, if_neg (Nat.not_lt.mpr hf.2), if_pos (hf.1 ▸ hlt)] at h
    obtain ⟨hp, hholds, -, htrace⟩ := h
    exact ⟨hholds, hp, by simp [htrace, framesOf_append, framesOf]⟩

/-- SCAN of an empty buffer waits for a header (R106). -/
theorem Scanned.empty {s t : State} (h : Scanned s t []) :
    t.rcv = 0 ∧ t.phase = .idle ∧ framesOf t.trace = framesOf s.trace := by
  obtain ⟨-, -, -, -, h⟩ := h
  rw [if_pos (by simp)] at h
  obtain ⟨hp, hholds, -, htrace⟩ := h
  exact ⟨hholds.1, hp, by simp [htrace, framesOf_append, framesOf]⟩

end Sys2Proof.Machine
end

section
/-! SUPPORT. A stream of whole frames with one RELEASE per frame behind it (spec/20_memory.md R56, spec/42_reassembler.md R113, R114): the bytes held and the octets still to come are always the frames not yet released, and each step presents the next frame or releases the presented one. -/

namespace Sys2Proof.Machine

/-- The flow of a stream of whole frames: the bytes `held` in the buffer and the octets `rest` still with the
Transport are the `frames` not yet released, and one RELEASE per frame stands behind the octets. -/
structure Flowing (s : State) (frames : List (List Byte)) (held rest : List Byte) : Prop where
  unfaulted : s.fault = none
  offers : s.inputs = undelivered rest ++ List.replicate frames.length (.command { code := 0b0011#4 })
  fits : held.length ≤ s.cfg.maxFrame
  split : held ++ rest = frames.flatten
  whole : ∀ f ∈ frames, WholeFrame s.cfg f

/-- SCAN changes nothing of the flow. -/
theorem Flowing.scanned {s t : State} {frames : List (List Byte)} {held rest bs : List Byte}
    (h : Flowing s frames held rest) (hscan : Scanned s t bs) : Flowing t frames held rest := by
  obtain ⟨hcfg, -, hfault, hinputs, -⟩ := hscan
  exact ⟨hfault ▸ h.unfaulted, hinputs ▸ h.offers, hcfg ▸ h.fits, h.split, hcfg ▸ h.whole⟩

/-- The frame `f` is presented, whole at the front of the bytes held, and `fs` come behind it. -/
def Presenting (s : State) (f : List Byte) (fs : List (List Byte)) : Prop :=
  s.phase = .present ∧ ∃ held rest, Flowing s (f :: fs) held rest ∧ Holds s held ∧ f.length ≤ held.length

/-- Only the beginning of the frame `f` is held, and the rest of it and `fs` are still to come. -/
def Awaiting (s : State) (f : List Byte) (fs : List (List Byte)) : Prop :=
  s.phase = .idle ∧ ∃ held rest, Flowing s (f :: fs) held rest ∧ Holds s held ∧ held.length < f.length

section
variable {s t : State} {f : List Byte} {fs : List (List Byte)} {held rest : List Byte}

/-- The frame at the front and the bytes held both begin the stream, so the shorter begins the longer. -/
theorem Flowing.front_prefix (h : Flowing s (f :: fs) held rest) (hle : f.length ≤ held.length) : f <+: held :=
  List.prefix_of_prefix_length_le ⟨fs.flatten, h.split.symm⟩ (List.prefix_append held rest) hle

theorem Flowing.prefix_front (h : Flowing s (f :: fs) held rest) (hle : held.length ≤ f.length) : held <+: f :=
  List.prefix_of_prefix_length_le (List.prefix_append held rest) ⟨fs.flatten, h.split.symm⟩ hle

/-- SCAN in the flow presents the next frame where it is whole (R109). -/
theorem Flowing.scan_whole (h : Flowing s (f :: fs) held rest) (hscan : Scanned s t held)
    (hle : f.length ≤ held.length) : Presenting t f fs ∧ Reports s t f := by
  obtain ⟨hholds, hp, hreports⟩ := hscan.whole (h.whole f List.mem_cons_self) (h.front_prefix hle)
  exact ⟨⟨hp, held, rest, h.scanned hscan, hholds, hle⟩, hreports⟩

/-- SCAN in the flow waits for the rest of the next frame where it is not whole (R106, R108). -/
theorem Flowing.scan_part (h : Flowing s (f :: fs) held rest) (hscan : Scanned s t held)
    (hlt : held.length < f.length) : Awaiting t f fs ∧ framesOf t.trace = framesOf s.trace := by
  obtain ⟨hholds, hp, hframes⟩ := hscan.part (h.whole f List.mem_cons_self) (h.prefix_front hlt.le) hlt
  exact ⟨⟨hp, held, rest, h.scanned hscan, hholds, hlt⟩, hframes⟩

/-- One delivery completes the awaited frame: the block asks for all the room it has, and an admitted frame fits
(R101, R114). -/
theorem Awaiting.deliver (h : Awaiting s f fs) :
    ∃ t, step s = .next t ∧ t.cfg = s.cfg ∧ Presenting t f fs ∧ Reports s t f := by
  obtain ⟨hp, held, rest, hflow, hholds, hlt⟩ := h
  have hroom : f.length ≤ s.cfg.maxFrame := (hflow.whole f List.mem_cons_self).length_le
  have htotal : f.length ≤ held.length + rest.length := by rw [← List.length_append, hflow.split]; simp
  have hspace : s.space = s.cfg.maxFrame - held.length := by rw [State.space, hholds.1]
  have hrest : rest ≠ [] := List.ne_nil_of_length_pos (by omega)
  have hin := hflow.offers
  rw [undelivered_of_ne_nil hrest] at hin
  obtain ⟨t, hstep, hscan⟩ := step_stream_scanned hflow.unfaulted hp hholds hin
    (List.ne_nil_of_length_pos (by rw [List.length_take]; omega))
  have hnext : Flowing ((s.setInputs _).putBack (rest.drop s.space)) (f :: fs) (held ++ rest.take s.space)
      (rest.drop s.space) :=
    { unfaulted := by simp [hflow.unfaulted]
      offers := State.putBack_inputs ..
      fits := by
        rw [List.length_append, List.length_take, State.putBack_cfg, State.setInputs_cfg, hspace]
        have := hflow.fits
        omega
      split := by rw [List.append_assoc, List.take_append_drop, hflow.split]
      whole := by simpa using hflow.whole }
  obtain ⟨hpresenting, hreports⟩ := hnext.scan_whole hscan (by rw [List.length_append, List.length_take]; omega)
  exact ⟨t, hstep, hscan.cfg_eq.trans (by simp), hpresenting, by simpa [Reports] using hreports⟩

/-- RELEASE of the presented frame scans what is held behind it, in the flow of the other frames (R111, R112). -/
theorem Presenting.release (h : Presenting s f fs) :
    ∃ u t left rest, step s = .next t ∧ u.cfg = s.cfg ∧ u.trace = s.trace ∧ Flowing u fs left rest ∧
      Scanned u t left := by
  obtain ⟨hp, held, rest, hflow, hholds, hle⟩ := h
  have hf : WholeFrame s.cfg f := hflow.whole f List.mem_cons_self
  have hlen : hdrLen + (frontLen s.cfg held).toNat = f.length := by
    rw [frontLen_of_prefix hf.hdrLen_le (hflow.front_prefix hle)]
    exact hf.1.symm
  have hstep := step_release hflow.unfaulted hp hflow.offers
  obtain ⟨t, hrelease, -, hscan⟩ := releaseFrame_of_holds (s := s.setInputs (undelivered rest ++ _))
    (hholds.congr rfl rfl) (hholds.1 ▸ hflow.fits) (hf.hdrLen_le.trans hle) (hlen ▸ hle)
  rw [State.setInputs_cfg, hlen] at hscan
  refine ⟨_, t, held.drop f.length, rest, hstep.trans hrelease, by rfl, by rfl, ?_, hscan⟩
  exact
    { unfaulted := hflow.unfaulted
      offers := rfl
      fits := by rw [List.length_drop]; exact (Nat.sub_le ..).trans hflow.fits
      split := by
        rw [← List.drop_append_of_le_length hle, hflow.split, List.flatten_cons, List.drop_left]
      whole := fun g hg => hflow.whole g (List.mem_cons_of_mem f hg) }

end

/-- Some number of steps from `s` reports exactly these frames in order, and leaves the block empty, in IDLE, with no
fault and nothing on offer. -/
def PresentsAll (s : State) (frames : List (List Byte)) : Prop :=
  ∃ k t presented, Host.Core.run core k s = .next t ∧
    framesOf t.trace = framesOf s.trace ++ presented ∧
    presented.map (fun x => (some x.1, x.2)) = frames.map (fun f => (hdrDecode s.cfg f, f.drop hdrLen)) ∧
    t.rcv = 0 ∧ t.phase = .idle ∧ t.fault = none ∧ t.inputs = []

section
variable {s t : State} {f : List Byte} {fs : List (List Byte)}

theorem run_succ_of_step (h : step s = .next t) (k : Nat) :
    Host.Core.run core (k + 1) s = Host.Core.run core k t := by
  have hcore : core.step s = .next t := h
  simp only [Host.Core.run, hcore]

/-- A step that reports no frame comes before those that do. -/
theorem PresentsAll.of_step (h : step s = .next t) (hcfg : t.cfg = s.cfg)
    (hframes : framesOf t.trace = framesOf s.trace) (hall : PresentsAll t fs) : PresentsAll s fs := by
  obtain ⟨k, v, presented, hrun, htrace, hpresented, hend⟩ := hall
  exact ⟨k + 1, v, presented, (run_succ_of_step h k).trans hrun, hframes ▸ htrace, hcfg ▸ hpresented, hend⟩

/-- A step that reports a frame comes before those that report the others. -/
theorem PresentsAll.of_reports (h : step s = .next t) (hcfg : t.cfg = s.cfg) (hreports : Reports s t f)
    (hall : PresentsAll t fs) : PresentsAll s (f :: fs) := by
  obtain ⟨hdr, hdec, hframes⟩ := hreports
  obtain ⟨k, v, presented, hrun, htrace, hpresented, hend⟩ := hall
  refine ⟨k + 1, v, (hdr, f.drop hdrLen) :: presented, (run_succ_of_step h k).trans hrun, ?_, ?_, hend⟩
  · rw [htrace, hframes, List.append_assoc, List.singleton_append]
  · rw [List.map_cons, List.map_cons, hdec, hpresented, hcfg]

/-- With no frame left in the flow, the empty buffer SCAN leaves is the end. -/
theorem PresentsAll.nil {u : State} {left rest : List Byte} (hflow : Flowing u [] left rest)
    (hscan : Scanned u t left) : PresentsAll t [] := by
  obtain ⟨rfl, rfl⟩ := List.append_eq_nil_iff.mp hflow.split
  obtain ⟨hrcv, hp, -⟩ := hscan.empty
  have hend := hflow.scanned hscan
  exact ⟨0, t, [], rfl, by simp, rfl, hrcv, hp, hend.unfaulted, hend.offers⟩

/-- From the presented frame on, the RELEASEs and deliveries present all the others: each RELEASE presents the next
frame itself, or waits for one delivery that does. -/
theorem Presenting.presentsAll (h : Presenting s f fs) : PresentsAll s fs := by
  induction fs generalizing s f with
  | nil =>
    obtain ⟨u, t, left, rest, hstep, hcfg, htrace, hflow, hscan⟩ := h.release
    obtain ⟨rfl, rfl⟩ := List.append_eq_nil_iff.mp hflow.split
    obtain ⟨-, -, hframes⟩ := hscan.empty
    exact .of_step hstep (hscan.cfg_eq.trans hcfg) (by rw [hframes, htrace]) (.nil hflow hscan)
  | cons g gs ih =>
    obtain ⟨u, t, left, rest, hstep, hcfg, htrace, hflow, hscan⟩ := h.release
    have hcfg' : t.cfg = s.cfg := hscan.cfg_eq.trans hcfg
    by_cases hle : g.length ≤ left.length
    · obtain ⟨hpresenting, hreports⟩ := hflow.scan_whole hscan hle
      rw [Reports, hcfg, htrace] at hreports
      exact .of_reports hstep hcfg' hreports (ih hpresenting)
    · obtain ⟨hawaiting, hframes⟩ := hflow.scan_part hscan (Nat.lt_of_not_le hle)
      obtain ⟨v, hdeliver, hcfgv, hpresenting, hreports⟩ := hawaiting.deliver
      exact .of_step hstep hcfg' (by rw [hframes, htrace])
        (.of_reports hdeliver hcfgv hreports (ih hpresenting))

/-- A stream of no octets is one delivery without data (R103). -/
theorem presentsAll_of_no_octets (hf : s.fault = none) (hp : s.phase = .idle) (hrcv : s.rcv = 0)
    (hin : s.inputs = [.stream []]) : PresentsAll s [] := by
  have hstep : step s = .next ((s.setInputs []).log (.event (.noData 0))) := by
    rw [step_stream hf hp hin, exec_ready (by simp [hf]) (by simp [hp])]
    simp [ownEffect, unlessPresent, hp, fillIdle, emit, State.putBack]
  exact .of_step hstep rfl (by simp [framesOf_append, framesOf])
    ⟨0, _, [], rfl, by simp, rfl, hrcv, hp, hf, rfl⟩

end

/-- Settles O43: the first delivery presents the first frame, and every RELEASE leads to the next one. -/
theorem streamOfFramesIsPresentedInOrder : Obligations.StreamOfFramesIsPresentedInOrder := by
  intro s frames hf hp hrcv hwhole hin
  change PresentsAll s frames
  cases frames with
  | nil => exact presentsAll_of_no_octets hf hp hrcv hin
  | cons f fs =>
    have hpos : 0 < f.length := Nat.lt_of_lt_of_le (by decide) (hwhole f List.mem_cons_self).hdrLen_le
    have hne : (f :: fs).flatten ≠ [] := List.ne_nil_of_length_pos (by simp; omega)
    have hflow : Flowing s (f :: fs) [] (f :: fs).flatten :=
      ⟨hf, by rw [hin, undelivered_of_ne_nil hne]; rfl, Nat.zero_le _, rfl, hwhole⟩
    have hawaiting : Awaiting s f fs := ⟨hp, [], _, hflow, holds_nil hrcv, hpos⟩
    obtain ⟨t, hstep, hcfg, hpresenting, hreports⟩ := hawaiting.deliver
    exact .of_reports hstep hcfg hreports hpresenting.presentsAll

end Sys2Proof.Machine
end

section
/-! SUPPORT. A frame's octets and the row they stand for determine each other, and so decoding undoes encoding (spec/30_encoding.md R60 to R66, R70). -/

namespace Sys2Proof.Machine

/-- `opdev[15:12]` of an opdev word put together from them and the device index (R61). -/
theorem opdevKind_append (k : BitVec 4) (d : BitVec 12) : (k ++ d : Word).extractLsb' 12 4 = k := by
  apply BitVec.eq_of_getLsbD_eq
  intro i hi
  rw [BitVec.getLsbD_extractLsb', getLsbD_join, if_neg (by omega), show 12 + i - 12 = i by omega]
  simp [hi]

/-- The sixteen rows stand for sixteen different values of `opdev[15:12]` (R66). -/
theorem frameRows_kinds_nodup (d : BitVec 12) (b : FrameBody) : ((frameRows d b).map Prod.snd).Nodup := by
  have hkinds : (frameRows d b).map Prod.snd = (List.range 16).map (BitVec.ofNat 4) := rfl
  rw [hkinds]
  decide

/-- `opdev[15:12]` selects one row (R66). -/
theorem frameRows_unique {i j : Instr} {kind : BitVec 4} {d : BitVec 12} {b : FrameBody}
    (hi : (i, kind) ∈ frameRows d b) (hj : (j, kind) ∈ frameRows d b) : i = j :=
  congrArg Prod.fst (List.inj_on_of_nodup_map (frameRows_kinds_nodup d b) hi hj rfl)

/-- The row that the opdev word of a frame row selects is that row (R61, R66). -/
theorem frameOfOpdev_append {i : Instr} {kind : BitVec 4} {d : BitVec 12} {b : FrameBody}
    (h : (i, kind) ∈ frameRows d b) : frameOfOpdev (kind ++ d) b = i := by
  have hrow := frameOfOpdev_row (kind ++ d) b
  rw [opdevKind_append, opdevDevice_append] at hrow
  exact frameRows_unique hrow h

/-- An instruction is a command, or a frame row with the fixed bits of its table row (R66, R70). -/
theorem isCommand_or_row (i : Instr) :
    isCommand i = true ∨ ∃ d b, (i, (Laws.FixedBits.row i).2) ∈ frameRows d b := by
  cases i
  case init | fill | release | decode | encode | seqNext => exact .inl rfl
  all_goals
    rename_i d b
    exact .inr ⟨d, b, by simp [frameRows, Laws.FixedBits.row]⟩

theorem FrameBody.wf_iff {b : FrameBody} : b.wf = true ↔ b.payload.length = b.len.toNat := beq_iff_eq

/-- The frame decoder on the octets of a frame (R60). -/
theorem decodeFrame_frameOctets (c : Config) (kind : BitVec 4) (d : BitVec 12) (b : FrameBody) :
    decodeFrame c (frameOctets c.wireOrder kind d b) =
      if b.wf = true then .ok (frameOfOpdev (kind ++ d) b)
      else .error (.payloadLength b.len.toNat b.payload.length) := by
  rw [frameOctets, decodeFrame_headerOctets]
  simp only [FrameBody.wf_iff]

/-- A command is read back from the port lines it is written on (R70, R71). -/
theorem decodeInput_encode_command {i : Instr} (h : isCommand i = true) (c : Config) :
    decodeInput c (encode c i) = .ok i := by
  cases i
  case init | fill | release | decode | encode | seqNext => rfl
  all_goals cases h

/-- A well-formed frame is read back from its octets (R60 to R66). -/
theorem decodeInput_encode_row {i : Instr} {kind : BitVec 4} {d : BitVec 12} {b : FrameBody}
    (hrow : (i, kind) ∈ frameRows d b) (hwf : i.wf = true) (c : Config) : decodeInput c (encode c i) = .ok i := by
  obtain ⟨hencode, hbody, -⟩ := frameRow_spec hrow c
  rw [hencode, decodeInput, decodeFrame_frameOctets, if_pos (hbody ▸ hwf), frameOfOpdev_append hrow]

/-- Settles O2: a command is read back from its lines; a frame from the six words its octets combine to, whose first
selects its row. -/
theorem decodeOfEncodeIsTheInstruction : Obligations.DecodeOfEncodeIsTheInstruction := by
  intro c i hwf
  obtain hcommand | ⟨d, b, hrow⟩ := isCommand_or_row i
  · exact decodeInput_encode_command hcommand c
  · exact decodeInput_encode_row hrow hwf c

/-- Octets with a whole header are the octets of some frame body, whatever `len` it declares (R60). -/
theorem exists_frameOctets (o : WireOrder) {octets : List Byte} (h : hdrLen ≤ octets.length) :
    ∃ kind d b, frameOctets o kind d b = octets := by
  match octets, h with
  | h0 :: h1 :: h2 :: h3 :: h4 :: h5 :: h6 :: h7 :: h8 :: h9 :: h10 :: h11 :: payload, _ =>
    refine ⟨(word16 o h0 h1).extractLsb' 12 4, opdevDevice (word16 o h0 h1),
      { seq := word16 o h2 h3, reg := word16 o h4 h5, pos := word16 o h6 h7, len := word16 o h8 h9,
        crc16 := word16 o h10 h11, payload := payload }, ?_⟩
    simp only [frameOctets, headerOctets, opdev_join, bytes16_word16, List.cons_append, List.nil_append]

/-- The unpacker on the octets of a frame (R62, R80). -/
theorem hdrDecode_frameOctets (c : Config) (kind : BitVec 4) (d : BitVec 12) (b : FrameBody) :
    hdrDecode c (frameOctets c.wireOrder kind d b) =
      some (headerOfWords c (kind ++ d) b.seq b.reg b.pos b.len b.crc16) :=
  hdrDecode_headerOctets ..

/-- The length a frame's octets declare is its `len` (R65). -/
theorem frontLen_frameOctets (c : Config) (kind : BitVec 4) (d : BitVec 12) (b : FrameBody) :
    frontLen c (frameOctets c.wireOrder kind d b) = b.len :=
  (hdrDecode_len (hdrDecode_frameOctets c kind d b)).symm

/-- The octets of a body that decode hold exactly the payload its `len` declares (R60). -/
theorem frameOctets_length_iff (c : Config) (kind : BitVec 4) (d : BitVec 12) (b : FrameBody) :
    (frameOctets c.wireOrder kind d b).length = hdrLen + (frontLen c (frameOctets c.wireOrder kind d b)).toNat ↔
      b.wf = true := by
  rw [frameOctets_length, frontLen_frameOctets, hdrLen_eq, Nat.add_left_cancel_iff, FrameBody.wf_iff]

/-- Octets that decode are the octets of the well-formed row they decode to. -/
theorem decodeFrame_wf_row {c : Config} {octets : List Byte} {i : Instr} (h : decodeFrame c octets = .ok i) :
    ∃ kind d b, (i, kind) ∈ frameRows d b ∧ b.wf = true ∧ frameOctets c.wireOrder kind d b = octets := by
  obtain ⟨kind, d, b, hrow, rfl⟩ := decodeFrame_row h
  refine ⟨kind, d, b, hrow, ?_, rfl⟩
  rw [decodeFrame_frameOctets] at h
  split at h
  · assumption
  · cases h

/-- Settles O3: octets with a whole header are those of a frame body, and decode exactly where that is well-formed. -/
theorem frameOctetsDecodeExactly : Obligations.FrameOctetsDecodeExactly := by
  refine fun c octets => ⟨⟨fun ⟨i, h⟩ => ?_, fun ⟨hheader, hwhole⟩ => ?_⟩, fun i h => ?_⟩
  · obtain ⟨kind, d, b, -, hwf, rfl⟩ := decodeFrame_wf_row h
    exact ⟨by simp [frameOctets_length, hdrLen_eq], (frameOctets_length_iff c kind d b).mpr hwf⟩
  · obtain ⟨kind, d, b, rfl⟩ := exists_frameOctets c.wireOrder hheader
    exact ⟨_, (decodeFrame_frameOctets c kind d b).trans (if_pos ((frameOctets_length_iff c kind d b).mp hwhole))⟩
  · obtain ⟨kind, d, b, hrow, hwf, rfl⟩ := decodeFrame_wf_row h
    obtain ⟨hencode, hbody, -⟩ := frameRow_spec hrow c
    exact ⟨hbody.trans hwf, hencode⟩

end Sys2Proof.Machine
end

section
/-! SUPPORT. The fields of a decoded header as numbers (spec/30_encoding.md R62, spec/40_codec.md R80). -/

namespace Sys2Proof

/-- `opdev[15:14]` as a number (R61). -/
theorem opdevType_toNat (w : Word) : (opdevType w).toNat = w.toNat / 16384 := by
  have hw := w.isLt
  rw [opdevType, BitVec.extractLsb'_toNat, Nat.shiftRight_eq_div_pow]
  omega

/-- `opdev[13:12]` as a number (R61). -/
theorem opdevOp_toNat (w : Word) : (opdevOp w).toNat = w.toNat / 4096 % 4 := by
  rw [opdevOp, BitVec.extractLsb'_toNat, Nat.shiftRight_eq_div_pow]

/-- `opdev[11:0]` as a number (R61). -/
theorem opdevDevice_toNat (w : Word) : (opdevDevice w).toNat = w.toNat % 4096 := by
  rw [opdevDevice, BitVec.extractLsb'_toNat, Nat.shiftRight_zero]

theorem typeOkFlag_iff {type : BitVec 2} : typeOkFlag type = true ↔ type.toNat ≠ 0 := by
  rw [typeOkFlag, bne_iff_ne, Ne, BitVec.toNat_eq, BitVec.toNat_ofNat]

theorem lenOkFlag_iff {c : Config} {len : Word} : lenOkFlag c len = true ↔ len.toNat ≤ c.maxPayload.val :=
  decide_eq_true_iff

/-- The unpacker reads the words at the octets 0, 2, 4, 6, 8 and 10 (R62). -/
theorem hdrDecode_eq_headerOfWords (c : Config) {h : List Byte} (hl : hdrLen ≤ h.length) :
    hdrDecode c h = some (headerOfWords c
      (word16 c.wireOrder (h.getD 0 0#8) (h.getD 1 0#8)) (word16 c.wireOrder (h.getD 2 0#8) (h.getD 3 0#8))
      (word16 c.wireOrder (h.getD 4 0#8) (h.getD 5 0#8)) (word16 c.wireOrder (h.getD 6 0#8) (h.getD 7 0#8))
      (word16 c.wireOrder (h.getD 8 0#8) (h.getD 9 0#8)) (word16 c.wireOrder (h.getD 10 0#8) (h.getD 11 0#8))) := by
  match h, hl with
  | _ :: _ :: _ :: _ :: _ :: _ :: _ :: _ :: _ :: _ :: _ :: _ :: _, _ => rfl

/-- Settles O6: the unpacker reads six words, and the first is cut into type, operation and device index. -/
theorem headerFieldsAssembled : Obligations.HeaderFieldsAssembled := by
  intro c h hl word
  exact ⟨(hdrDecode_take hl).symm, _, hdrDecode_eq_headerOfWords c hl, opdevType_toNat _, opdevOp_toNat _,
    opdevDevice_toNat _, rfl, rfl, rfl, rfl, rfl, typeOkFlag_iff, lenOkFlag_iff⟩

end Sys2Proof
end

section
/-! SUPPORT. A frame row received by an empty block in IDLE is presented (spec/42_reassembler.md R104, R109). -/

namespace Sys2Proof.Machine

/-- The octets of a well-formed body of at most MAX_PAYLOAD octets are one whole admitted frame (R60, R65). -/
theorem wholeFrame_frameOctets {c : Config} {b : FrameBody} (hwf : b.wf = true)
    (hmax : b.len.toNat ≤ c.maxPayload.val) (kind : BitVec 4) (d : BitVec 12) :
    WholeFrame c (frameOctets c.wireOrder kind d b) :=
  ⟨(frameOctets_length_iff c kind d b).mpr hwf, (frontLen_frameOctets c kind d b).symm ▸ hmax⟩

theorem frameOctets_drop_hdrLen (o : WireOrder) (kind : BitVec 4) (d : BitVec 12) (b : FrameBody) :
    (frameOctets o kind d b).drop hdrLen = b.payload :=
  List.drop_left' (headerOctets_length ..)

/-- `opdev[15:14]` and `opdev[13:12]` as the two halves of the row's four bits (R61, R66). -/
theorem opdevType_append_toNat (k : BitVec 4) (d : BitVec 12) : (opdevType (k ++ d)).toNat = k.toNat / 4 := by
  have hk := k.isLt
  rw [opdevType_append, BitVec.extractLsb'_toNat, Nat.shiftRight_eq_div_pow]
  omega

theorem opdevOp_append_toNat (k : BitVec 4) (d : BitVec 12) : (opdevOp (k ++ d)).toNat = k.toNat % 4 := by
  rw [opdevOp_append, BitVec.extractLsb'_toNat, Nat.shiftRight_zero]

/-- SCAN of exactly one whole admitted frame presents it, and the frame port shows it (R34, R91, R109). -/
theorem Scanned.presented {s t : State} {f : List Byte} {hdr : Header} (h : Scanned s t f)
    (hf : WholeFrame s.cfg f) (hdec : hdrDecode s.cfg f = some hdr) :
    t.phase = .present ∧ t.rcv = f.length ∧ t.seqIn = hdr.seq ∧
      t.trace = s.trace ++ [.event (.frame hdr (f.drop hdrLen))] ∧ framePort t = some (hdr, f.drop hdrLen) := by
  have hlen := hdrDecode_len hdec
  obtain ⟨hwhole, hmax⟩ := hf
  obtain ⟨hcfg, -, -, -, h⟩ := h
  rw [if_neg (by omega), if_neg (by omega), if_neg (by omega)] at h
  obtain ⟨hp, hholds, hdr', hdec', hseq, htrace⟩ := h
  obtain rfl : hdr = hdr' := by simpa using hdec.symm.trans hdec'
  have hpayload : (f.drop hdrLen).take (frontLen s.cfg f).toNat = f.drop hdrLen :=
    List.take_of_length_le (by rw [List.length_drop]; omega)
  have hfront := frontFrame_of_holds hholds (hcfg ▸ hdec) (by rw [hlen, hwhole])
  rw [hlen, hpayload] at hfront
  rw [hpayload] at htrace
  exact ⟨hp, hholds.1, hseq, htrace, framePort_of_frontFrame hp hfront⟩

/-- An empty block in IDLE takes the whole of an admitted frame row, and scans exactly its octets (R101, R104). -/
theorem exec_row_empty {s : State} {i : Instr} {kind : BitVec 4} {d : BitVec 12} {b : FrameBody}
    (hrow : (i, kind) ∈ frameRows d b) (hf : s.fault = none) (hp : s.phase = .idle) (hrcv : s.rcv = 0)
    (hwhole : WholeFrame s.cfg (rowOctets s kind d b)) :
    ∃ t, exec i s = .next t ∧ t.buf = s.buf.writeBytes 0 (rowOctets s kind d b) ∧
      Scanned s t (rowOctets s kind d b) := by
  have hfit := hwhole.length_le
  have hspace : s.space = s.cfg.maxFrame := by rw [State.space, hrcv, Nat.sub_zero]
  have hne : rowOctets s kind d b ≠ [] := List.ne_nil_of_length_pos (by rw [frameOctets_length]; omega)
  obtain ⟨t, happend, hbuf, hscan⟩ := append_of_holds (data := rowOctets s kind d b) (holds_nil hrcv) hp
    (by rwa [hrcv, Nat.zero_add])
  refine ⟨t, ?_, hrcv ▸ hbuf, hscan⟩
  rw [exec_row_idle hrow hf hp, List.take_of_length_le (hspace ▸ hfit), List.drop_of_length_le (hspace ▸ hfit),
    State.putBack, if_pos rfl, exec_ready hf (by simp [hp]), ← happend, ← fillIdle_append hne (hspace ▸ hfit)]
  exact if_neg (by simp [hp])

/-- Settles O26: the row's octets are one whole admitted frame, which the empty block takes whole and SCAN presents. -/
theorem frameRowsArePresented : Obligations.FrameRowsArePresented := by
  intro s device body i kind hrow hf hp hrcv hpayload hmax
  have hwhole := wholeFrame_frameOctets (FrameBody.wf_iff.mpr hpayload) hmax kind device
  have hlength : (rowOctets s kind device body).length = hdrLen + body.len.toNat := by
    rw [frameOctets_length, hpayload]
  obtain ⟨t, hexec, hbuf, hscan⟩ := exec_row_empty hrow hf hp hrcv hwhole
  obtain ⟨hphase, hheld, hseq, htrace, hport⟩ := hscan.presented hwhole (hdrDecode_frameOctets ..)
  rw [frameOctets_drop_hdrLen] at htrace hport
  obtain ⟨hcfg, hseqOut, hfault, hinputs, -⟩ := hscan
  have hcells : ∀ a, hdrLen + body.len.toNat ≤ a → t.buf.read a = s.buf.read a := fun a ha => by
    rw [hbuf, Memory.read_writeBytes, if_neg (by omega)]
  exact ⟨t, _, hexec, hphase, hheld.trans hlength, hseq, htrace, hport, opdevType_append_toNat kind device,
    opdevOp_append_toNat kind device, opdevDevice_append kind device, rfl, rfl, rfl, rfl, rfl,
    typeOkFlag_iff.trans (by rw [opdevType_append_toNat]), lenOkFlag_iff.mpr hmax, hseqOut, hcfg,
    hfault.trans hf, hinputs, hcells⟩

end Sys2Proof.Machine
end

section
/-! SUPPORT. The codes of the command port (spec/30_encoding.md R70, R72), and inputs written out. -/

namespace Sys2Proof.Machine

/-- The codes of no command (R72). -/
theorem decodeCommand_reserved {p : CommandPort} (h : p.code.toNat = 0 ∨ 7 ≤ p.code.toNat) :
    decodeCommand p = .error (.reservedCode p.code) := by
  unfold decodeCommand
  split
  case h_7 => rfl
  all_goals omega

/-- The codes of the six commands (R70). -/
theorem decodeCommand_code {p : CommandPort} (h : 1 ≤ p.code.toNat ∧ p.code.toNat ≤ 6) :
    ∃ i, decodeCommand p = .ok i ∧ i.code = p.code := by
  unfold decodeCommand
  split
  case h_7 => simp only [imp_false] at *; omega
  all_goals exact ⟨_, rfl, BitVec.eq_of_toNat_eq (by simp only [*]; rfl)⟩

/-- A reserved code that stands first in the offers is taken, as no command is held but FILL (R72, R145). -/
theorem step_reserved {s : State} {p : CommandPort} {rest : List Input} (hin : s.inputs = .command p :: rest)
    (h : p.code.toNat = 0 ∨ 7 ≤ p.code.toNat) : step s = illegalCommand p.code (s.setInputs rest) := by
  have hnotFill : p.code ≠ 0b0010#4 := fun hcode => by simp [hcode] at h
  have hfetch : fetch s = .reserved p.code (s.setInputs rest) := by
    rw [fetch_head hin (isHeld_eq_false (.inr (.inr ⟨p, rfl, hnotFill⟩)))]
    simp [takeInput, decodeInput, decodeCommand_reserved h]
  simp only [step, hfetch]

/-- Settles O4: a reserved code is taken in every phase and answered by F_ILLEGAL_CMD alone. -/
theorem reservedCodesRaiseIllegalCmd : Obligations.ReservedCodesRaiseIllegalCmd := by
  refine ⟨fun s p rest hf hin hcode => ?_, fun p => decodeCommand_code⟩
  rw [step_reserved hin hcode, illegalCommand, unlessFaulted_none (s := s.setInputs rest) hf]
  rfl

/-- Settles O1: both decoders evaluate on each input written out. -/
theorem writtenOutWordsDecode : Obligations.WrittenOutWordsDecode :=
  ⟨rfl, rfl, rfl, rfl, rfl, rfl, rfl, rfl, rfl, rfl, rfl⟩

end Sys2Proof.Machine
end

section
/-! SUPPORT. The header packer and the unpacker undo each other up to the masks and crc16 (spec/40_codec.md R82 to R86). -/

namespace Sys2Proof

/-- The packed opdev keeps two bits of the type, two of the operation and twelve of the device index (R82). -/
theorem opdevType_pack_toNat (t o d : Word) : (opdevType (packOpdev t o d)).toNat = t.toNat % 4 := by
  rw [opdevType_pack, BitVec.toNat_setWidth]

theorem opdevOp_pack_toNat (t o d : Word) : (opdevOp (packOpdev t o d)).toNat = o.toNat % 4 := by
  rw [opdevOp_pack, BitVec.toNat_setWidth]

theorem opdevDevice_pack_toNat (t o d : Word) : (opdevDevice (packOpdev t o d)).toNat = d.toNat % 4096 := by
  rw [opdevDevice_pack, BitVec.toNat_setWidth]

/-- The packed opdev as a number: its three fields are the digits of a word (R82). -/
theorem packOpdev_toNat (t o d : Word) :
    (packOpdev t o d).toNat = t.toNat % 4 * 16384 + o.toNat % 4 * 4096 + d.toNat % 4096 := by
  have htype := opdevType_toNat (packOpdev t o d)
  have hop := opdevOp_toNat (packOpdev t o d)
  have hdevice := opdevDevice_toNat (packOpdev t o d)
  rw [opdevType_pack_toNat] at htype
  rw [opdevOp_pack_toNat] at hop
  rw [opdevDevice_pack_toNat] at hdevice
  omega

theorem hdrEncode_length (o : WireOrder) (type op dev reg pos len seq : Word) :
    (hdrEncode o type op dev reg pos len seq).length = 12 :=
  headerOctets_length ..

/-- Settles O7: the packed opdev, and the packer's own layout. -/
theorem headerPackedAsMasked : Obligations.HeaderPackedAsMasked :=
  fun o type op dev reg pos len seq =>
    ⟨packOpdev type op dev, packOpdev_toNat type op dev, rfl, hdrEncode_length o type op dev reg pos len seq⟩

/-- The unpacker on the packer's bytes reads the packed words, with crc16 zero (R84). -/
theorem hdrDecode_hdrEncode (c : Config) (type op dev reg pos len seq : Word) :
    hdrDecode c (hdrEncode c.wireOrder type op dev reg pos len seq) =
      some (headerOfWords c (packOpdev type op dev) seq reg pos len 0#16) := by
  simpa [hdrEncode] using hdrDecode_headerOctets c (packOpdev type op dev) seq reg pos len 0#16 []

/-- Settles O8: of type, op and dev the unpacker gives the remainders that the masks leave. -/
theorem headerRoundTrip : Obligations.HeaderRoundTrip := by
  intro c type op dev reg pos len seq
  have htype := opdevType_pack_toNat type op dev
  have hop := opdevOp_pack_toNat type op dev
  have hdevice := opdevDevice_pack_toNat type op dev
  rw [hdrDecode_hdrEncode]
  refine ⟨fun htypeMax hopMax hdevMax hlenMax => ?_, fun hout d hd => ?_⟩
  · have hback : (opdevType (packOpdev type op dev)).toNat = type.toNat :=
      htype.trans (Nat.mod_eq_of_lt (by omega))
    exact ⟨_, rfl, hback, hop.trans (Nat.mod_eq_of_lt (by omega)), hdevice.trans (Nat.mod_eq_of_lt (by omega)),
      rfl, rfl, rfl, rfl, rfl, typeOkFlag_iff.trans (by rw [hback]), lenOkFlag_iff.mpr hlenMax⟩
  · cases hd
    simp only [headerOfWords]
    omega

/-- The three fields of an opdev word pack to that word (R85). -/
theorem packOpdev_fields (w : Word) :
    packOpdev ((opdevType w).setWidth 16) ((opdevOp w).setWidth 16) ((opdevDevice w).setWidth 16) = w := by
  have hw := w.isLt
  apply BitVec.eq_of_toNat_eq
  simp only [packOpdev_toNat, BitVec.toNat_setWidth, opdevType_toNat, opdevOp_toNat, opdevDevice_toNat]
  omega

/-- The header octets of a decoded header's fields, its crc16 among them, are the bytes it was decoded from. -/
theorem headerOctets_of_hdrDecode {c : Config} {h : List Byte} {d : Header} (hl : h.length = 12)
    (hd : hdrDecode c h = some d) :
    headerOctets c.wireOrder (packOpdev (d.type.setWidth 16) (d.op.setWidth 16) (d.device.setWidth 16))
      d.seq d.reg d.pos d.len d.crc16 = h := by
  match h, hl with
  | [_, _, _, _, _, _, _, _, _, _, _, _], _ =>
    cases hd
    simp only [headerOfWords, packOpdev_fields, headerOctets, bytes16_word16, List.cons_append, List.nil_append]

theorem bytes16_inj {o : WireOrder} {v w : Word} (h : bytes16 o v = bytes16 o w) : v = w := by
  obtain ⟨x, y, hxy, hw⟩ := bytes16_pair o w
  exact (word16_of_bytes16 (h.trans hxy)).symm.trans hw

/-- The packer gives a decoded header's bytes back exactly where crc16, the one word it does not carry, was zero (R85). -/
theorem hdrEncode_of_hdrDecode {c : Config} {h : List Byte} {d : Header} (hl : h.length = 12)
    (hd : hdrDecode c h = some d) :
    hdrEncode c.wireOrder (d.type.setWidth 16) (d.op.setWidth 16) (d.device.setWidth 16) d.reg d.pos d.len d.seq = h ↔
      d.crc16 = 0#16 := by
  have hbytes := headerOctets_of_hdrDecode hl hd
  refine ⟨fun hback => ?_, fun hcrc => ?_⟩
  · exact (bytes16_inj (List.append_cancel_left (hback.trans hbytes.symm))).symm
  · rwa [hcrc] at hbytes

/-- Twelve bytes are determined by the header they decode to (R86). -/
theorem hdrDecode_inj {c : Config} {h h' : List Byte} (hl : h.length = 12) (hl' : h'.length = 12)
    (heq : hdrDecode c h = hdrDecode c h') : h = h' := by
  obtain ⟨d, hd, -⟩ := hdrDecode_some (c := c) hl.ge
  exact (headerOctets_of_hdrDecode hl hd).symm.trans (headerOctets_of_hdrDecode hl' (heq ▸ hd))

/-- Header octet `k` is a byte of word `k / 2` (R60). -/
theorem headerOctets_getElem? (o : WireOrder) (w0 w1 w2 w3 w4 w5 : Word) (k : Nat) :
    (headerOctets o w0 w1 w2 w3 w4 w5)[k]? = [w0, w1, w2, w3, w4, w5][k / 2]?.bind fun w => (bytes16 o w)[k % 2]? := by
  by_cases hk : k < 12
  · cases o <;> interval_cases k <;> rfl
  · rw [List.getElem?_eq_none (by rw [headerOctets_length]; omega), List.getElem?_eq_none (by simp; omega)]
    rfl

/-- A change of header word `j` alone leaves the octets outside that word as they are. -/
theorem headerOctets_getElem?_of_set (o : WireOrder) {w0 w1 w2 w3 w4 w5 v0 v1 v2 v3 v4 v5 : Word} {k : Nat} (j : Nat)
    (v : Word) (hset : [v0, v1, v2, v3, v4, v5] = [w0, w1, w2, w3, w4, w5].set j v) (hne : j ≠ k / 2) :
    (headerOctets o v0 v1 v2 v3 v4 v5)[k]? = (headerOctets o w0 w1 w2 w3 w4 w5)[k]? := by
  rw [headerOctets_getElem?, headerOctets_getElem?, hset, List.getElem?_set_ne hne]

/-- Settles O10: twelve bytes are repacked from their header, and each input of the packer goes into one word alone. -/
theorem headerFieldsIndependent : Obligations.HeaderFieldsIndependent := by
  refine ⟨fun c h h' => hdrDecode_inj, fun o type op dev reg pos len seq v k =>
    ⟨fun hk => ⟨?type, ?op, ?dev⟩, fun hk => ?seq, fun hk => ?reg, fun hk => ?pos, fun hk => ?len⟩⟩
  case type | op | dev => exact headerOctets_getElem?_of_set o 0 _ rfl (by omega)
  case seq => exact headerOctets_getElem?_of_set o 1 v rfl (by omega)
  case reg => exact headerOctets_getElem?_of_set o 2 v rfl (by omega)
  case pos => exact headerOctets_getElem?_of_set o 3 v rfl (by omega)
  case len => exact headerOctets_getElem?_of_set o 4 v rfl (by omega)

end Sys2Proof
end

section
/-! SUPPORT. What DECODE, ENCODE and SEQ_NEXT report, and what they leave unchanged (spec/20_memory.md R41, spec/40_codec.md R81, R83, R85, spec/41_sequence.md R92). -/

namespace Sys2Proof.Machine

/-- DECODE of an operand with a header reports it (R81). -/
theorem exec_decode_some {s : State} {h : List Byte} {d : Header} (hf : s.fault = none) (hp : s.phase ≠ .uninit)
    (hd : hdrDecode s.cfg h = some d) : exec (.decode h) s = .next (s.log (.event (.decoded d))) := by
  rw [exec_ready hf hp]
  simp only [ownEffect, withHeader, hd, emit]

/-- DECODE of an operand without a header raises F_SHORT_HEADER (R81). -/
theorem exec_decode_none {s : State} {h : List Byte} (hf : s.fault = none) (hp : s.phase ≠ .uninit)
    (hd : hdrDecode s.cfg h = none) : exec (.decode h) s = .next (s.raised (.shortHeader h.length)) := by
  rw [exec_ready hf hp]
  simp only [ownEffect, withHeader, hd, raise]

/-- Settles O18: the unpacker answers exactly on at least twelve bytes. -/
theorem decodeReportsItsHeader : Obligations.DecodeReportsItsHeader := by
  intro s h hf hp
  refine ⟨fun hl => ?_, fun hl => exec_decode_none hf hp (hdrDecode_none_iff.mpr hl)⟩
  obtain ⟨d, hd, -⟩ := hdrDecode_some (c := s.cfg) hl
  exact ⟨d, hd, exec_decode_some hf hp hd⟩

/-- ENCODE reports the packer's bytes, or raises F_ENCODE_OVERSIZE (R83). -/
theorem exec_encode {s : State} (hf : s.fault = none) (hp : s.phase ≠ .uninit)
    (type op dev reg pos len seq : Word) :
    exec (.encode type op dev reg pos len seq) s =
      if s.cfg.maxPayload.val < len.toNat then .next (s.raised (.encodeOversize len))
      else .next (s.log (.event (.encoded (hdrEncode s.cfg.wireOrder type op dev reg pos len seq)))) :=
  exec_ready hf hp

/-- Settles O19: the two sides of ENCODE's check of `len`. -/
theorem encodeReportsItsBytes : Obligations.EncodeReportsItsBytes := by
  intro s type op dev reg pos len seq hf hp
  rw [exec_encode hf hp]
  exact ⟨fun hlen => if_neg (Nat.not_lt.mpr hlen), fun hlen => if_pos hlen⟩

/-- Settles O9: the packer carries every decoded word but crc16, and ENCODE runs the packer. -/
theorem headerReverseLaw : Obligations.HeaderReverseLaw := by
  intro c h hl
  obtain ⟨d, hd, -⟩ := hdrDecode_some (c := c) hl.ge
  refine ⟨d, hd, hdrEncode_of_hdrDecode hl hd, fun s hcfg hf hp => ?_⟩
  subst hcfg
  exact exec_encode hf hp ..

/-- What the three commands without a buffer access can do: raise a fault, emit an event, or count `seq_out` up
and emit an event (R81, R83, R92). -/
theorem exec_bufferless_next {s t : State} {i : Instr}
    (hi : (∃ h, i = .decode h) ∨ (∃ type op dev reg pos len seq, i = .encode type op dev reg pos len seq) ∨ i = .seqNext)
    (h : exec i s = .next t) :
    (∃ f, t = s.raised f) ∨ (∃ e, t = s.log (.event e)) ∨
      (i = .seqNext ∧ s.fault = none ∧ ∃ v e, t = (s.setSeqOut v).log (.event e)) := by
  obtain ⟨hf, ⟨rfl, -⟩ | ⟨-, -, hraise⟩ | ⟨-, hp, -⟩⟩ := exec_next h
  · simp at hi
  · cases hraise
    exact .inl ⟨_, rfl⟩
  · obtain ⟨operand, rfl⟩ | ⟨type, op, dev, reg, pos, len, seq, rfl⟩ | rfl := hi
    · cases hd : hdrDecode s.cfg operand with
      | none => cases (exec_decode_none hf hp hd).symm.trans h; exact .inl ⟨_, rfl⟩
      | some d => cases (exec_decode_some hf hp hd).symm.trans h; exact .inr (.inl ⟨_, rfl⟩)
    · rw [exec_encode hf hp] at h
      split at h
      · cases h; exact .inl ⟨_, rfl⟩
      · cases h; exact .inr (.inl ⟨_, rfl⟩)
    · rw [exec_ready hf hp] at h
      cases h
      exact .inr (.inr ⟨rfl, hf, _, _, rfl⟩)

/-- Settles O30: none of the three outcomes writes the rest, and only the last, which has no fault, writes `seq_out`. -/
theorem bufferlessCommandsLeaveTheRest : Obligations.BufferlessCommandsLeaveTheRest := by
  intro s t i hi h
  obtain ⟨f, rfl⟩ | ⟨e, rfl⟩ | ⟨rfl, hf, v, e, rfl⟩ := exec_bufferless_next hi h
  · simp
  · simp
  · simp [hf]

end Sys2Proof.Machine
end

section
/-! SUPPORT. What an instruction does to the two sequence registers and to the trace's record of them: INIT clears both, SEQ_NEXT counts `seq_out`, and every other instruction can only capture a presented frame's `seq` (spec/41_sequence.md R90 to R97). -/

namespace Sys2Proof.Machine

/-- SEQ_NEXT in an unfaulted, initialised block counts `seq_out` up and reports it (R92). -/
theorem exec_seqNext {s : State} (hf : s.fault = none) (hp : s.phase ≠ .uninit) :
    exec .seqNext s = .next ((s.setSeqOut (s.seqOut + 1#16)).log (.event (.seq (s.seqOut + 1#16)))) :=
  exec_ready hf hp

/-- Settles O17: the sum of 16-bit words is the sum modulo 2^16. -/
theorem seqNextCountsModulo : Obligations.SeqNextCountsModulo :=
  fun s hf hp => ⟨s.seqOut + 1#16, BitVec.toNat_add s.seqOut 1#16, exec_seqNext hf hp⟩

/-- Settles O39: in PRESENT `seq_in` is the presented header's `seq`, and the unpacker reads back the packed `seq`. -/
theorem replyEchoesPresentedSeq : Obligations.ReplyEchoesPresentedSeq := by
  intro s hinv hf hp
  obtain ⟨hdr, payload, hport, -, -, hseq, -⟩ := hinv.present hp
  have hinit : s.phase ≠ .uninit := by simp [hp]
  refine ⟨hdr, payload, s.seqIn, hport, if_neg hinit, fun type op dev reg pos len hlen => ?_⟩
  exact ⟨_, _, (exec_encode hf hinit ..).trans (if_neg (Nat.not_lt.mpr hlen)), hdrDecode_hdrEncode .., hseq⟩

theorem seqValues_append (xs ys : List TraceEntry) : seqValues (xs ++ ys) = seqValues xs ++ seqValues ys := by
  fun_induction seqValues xs <;> simp_all [seqValues]

/-- What every instruction but INIT and a counting SEQ_NEXT does to the sequence registers: `seq_out` and the record
of its values stay, and `seq_in` moves by a presentation alone (R91). -/
structure CapturesOnly (s t : State) : Prop where
  seqOut : t.seqOut = s.seqOut
  values : seqValues t.trace = seqValues s.trace
  seqIn : (∃ hdr payload, t.trace = s.trace ++ [.event (.frame hdr payload)] ∧ t.seqIn = hdr.seq) ∨
    (framesOf t.trace = framesOf s.trace ∧ t.seqIn = s.seqIn)

/-- It says nothing of the other fields of the state before. -/
theorem CapturesOnly.congr {s s' t : State} (h : CapturesOnly s' t) (hout : s'.seqOut = s.seqOut)
    (hin : s'.seqIn = s.seqIn) (htrace : s'.trace = s.trace) : CapturesOnly s t :=
  ⟨hout ▸ h.seqOut, htrace ▸ h.values, htrace ▸ hin ▸ h.seqIn⟩

theorem CapturesOnly.raised (s : State) (f : FaultRecord) : CapturesOnly s (s.raised f) :=
  ⟨rfl, by simp [seqValues_append, seqValues], .inr ⟨by simp, rfl⟩⟩

/-- An event that carries neither a counted value nor a frame moves nothing. -/
theorem CapturesOnly.logEvent (s : State) {e : Event} (hv : seqValues [.event e] = []) (hf : framesOf [.event e] = []) :
    CapturesOnly s (s.log (.event e)) :=
  ⟨rfl, by simp [seqValues_append, hv], .inr ⟨by simp [framesOf_append, hf], rfl⟩⟩

/-- SCAN captures the `seq` of the frame it presents, and has three other outcomes (R91, R109). -/
theorem scan_capturesOnly {s t : State} (h : scan s = .next t) : CapturesOnly s t := by
  obtain ⟨-, rfl⟩ | ⟨-, len0, -, ⟨-, rfl⟩ | ⟨-, -, rfl⟩ | ⟨-, -, hdr, payload, -, rfl⟩⟩ := scan_next h
  · exact .logEvent s rfl rfl
  · exact (CapturesOnly.logEvent (s.setRcv 0) rfl rfl).congr rfl rfl rfl
  · exact .logEvent s rfl rfl
  · exact ⟨rfl, by simp [seqValues_append, seqValues], .inl ⟨hdr, payload, rfl, rfl⟩⟩

theorem append_capturesOnly {s t : State} {data : List Byte} (h : append data s = .next t) : CapturesOnly s t :=
  (scan_capturesOnly (append_next h).2).congr rfl rfl rfl

/-- Every outcome of an instruction but INIT captures only, or is SEQ_NEXT's count. -/
theorem Answers.seq_cases {s t : State} {i : Instr} (h : Answers s i t) (hi : i ≠ .init) :
    (i = .seqNext ∧ s.phase ≠ .uninit ∧
      t = (s.setSeqOut (s.seqOut + 1#16)).log (.event (.seq (s.seqOut + 1#16)))) ∨
    ((i = .seqNext → s.phase = .uninit) ∧ CapturesOnly s t) := by
  cases h
  case init => exact absurd rfl hi
  case seqNext hp => exact .inl ⟨rfl, hp, rfl⟩
  case beforeInit hp _ => exact .inr ⟨fun _ => hp, .raised s _⟩
  case held _ hc => exact .inr ⟨by rintro rfl; simp [Instr.code] at hc, rfl, rfl, .inr ⟨rfl, rfl⟩⟩
  case fill happend => exact .inr ⟨by simp, append_capturesOnly happend⟩
  case release hrelease =>
    obtain ⟨_, _, _, _, _, _, _, hscan⟩ := releaseFrame_next hrelease
    exact .inr ⟨by simp, (scan_capturesOnly hscan).congr rfl rfl rfl⟩
  case row _ _ hrow happend =>
    refine .inr ⟨by rintro rfl; simp [frameRows] at hrow, ?_⟩
    exact (append_capturesOnly happend).congr (State.putBack_seqOut ..) (State.putBack_seqIn ..)
      (State.putBack_trace ..)
  case rowNoData _ _ hrow =>
    refine .inr ⟨by rintro rfl; simp [frameRows] at hrow, ?_⟩
    exact (CapturesOnly.logEvent _ rfl rfl).congr (State.putBack_seqOut ..) (State.putBack_seqIn ..)
      (State.putBack_trace ..)
  case noData | decoded | encoded => exact .inr ⟨by simp, .logEvent s rfl rfl⟩
  all_goals exact .inr ⟨by simp, .raised s _⟩

/-- A trace with no more frames than before has had no frame appended. -/
theorem ne_append_frame {xs ys : List TraceEntry} (h : framesOf ys = framesOf xs) (hdr : Header) (payload : List Byte) :
    ys ≠ xs ++ [.event (.frame hdr payload)] := by
  rintro rfl
  simp at h

/-- Settles O36: INIT and SEQ_NEXT report no frame, and every other outcome captures only. -/
theorem seqInCapturedAtPresentation : Obligations.SeqInCapturedAtPresentation := by
  intro s t i h
  by_cases hi : i = .init
  · subst hi
    rw [exec_init] at h
    obtain ⟨-, h⟩ := unlessFaulted_next h
    cases h
    exact .inr ⟨ne_append_frame (by simp [framesOf_append, framesOf]), by simp⟩
  · rw [if_neg hi]
    obtain ⟨-, -, rfl⟩ | ⟨-, hcaptures⟩ := (exec_answers h).2.seq_cases hi
    · exact .inr ⟨ne_append_frame (by simp [framesOf_append, framesOf]), rfl⟩
    · exact hcaptures.seqIn.imp_right fun ⟨hframes, hseq⟩ => ⟨ne_append_frame hframes, hseq⟩

end Sys2Proof.Machine
end

section
/-! SUPPORT. No operation reads one sequence register to write the other (spec/41_sequence.md R90). -/

namespace Sys2Proof.Machine

/-- The state with the sequence registers `a` and `b`. -/
abbrev State.setSeqs (s : State) (a b : Word) : State := (s.setSeqIn a).setSeqOut b

/-- Where `o` answers, `o'` answers as well, with the same `seq_in` if `pin` and the same `seq_out` if `pout`. -/
def SeqsAgree (pin pout : Prop) (o o' : Out) : Prop :=
  ∀ t, o = .next t → ∃ u, o' = .next u ∧ (pin → u.seqIn = t.seqIn) ∧ (pout → u.seqOut = t.seqOut)

section
variable {pin pout : Prop}

theorem SeqsAgree.next {t u : State} (hin : pin → u.seqIn = t.seqIn) (hout : pout → u.seqOut = t.seqOut) :
    SeqsAgree pin pout (.next t) (.next u) := by
  rintro _ ⟨⟩
  exact ⟨u, rfl, hin, hout⟩

theorem SeqsAgree.fault (f : Fault) (o' : Out) : SeqsAgree pin pout (.fault f) o' := by
  rintro _ ⟨⟩

theorem SeqsAgree.ite {p p' : Prop} [Decidable p] [Decidable p'] {o₁ o₁' o₂ o₂' : Out} (hp : p' ↔ p)
    (h₁ : SeqsAgree pin pout o₁ o₁') (h₂ : SeqsAgree pin pout o₂ o₂') :
    SeqsAgree pin pout (if p then o₁ else o₂) (if p' then o₁' else o₂') := by
  by_cases h : p
  · rwa [if_pos h, if_pos (hp.mpr h)]
  · rwa [if_neg h, if_neg (mt hp.mp h)]

theorem SeqsAgree.orStop {α : Type} {x x' : Except Fault α} {k k' : α → Out} (hx : x' = x)
    (hk : ∀ v, SeqsAgree pin pout (k v) (k' v)) : SeqsAgree pin pout (orStop x k) (orStop x' k') := by
  subst hx
  cases x' with
  | error f => exact .fault f _
  | ok v => exact hk v

end

/-- R90 of one operation: started with other values of the sequence registers it answers as well, and leaves the
same value in each register that was not changed beforehand. -/
def SeqsIndependent (k : State → Out) : Prop :=
  ∀ (s : State) (a b : Word), SeqsAgree (a = s.seqIn) (b = s.seqOut) (k s) (k (s.setSeqs a b))

theorem seqsIndependent_raise (f : FaultRecord) : SeqsIndependent (raise f) := fun _ _ _ => .next id id

theorem seqsIndependent_emit (e : Event) : SeqsIndependent (emit e) := fun _ _ _ => .next id id

/-- SCAN reads the buffer alone, and overwrites `seq_in` where it writes it (R105 to R109). -/
theorem seqsIndependent_scan : SeqsIndependent scan := fun s a b =>
  .ite .rfl (seqsIndependent_emit _ s a b) <| .orStop (readWord_congr rfl rfl rfl 8) fun _ =>
    .ite .rfl (seqsIndependent_emit _ (s.setRcv 0) a b) <| .ite .rfl (seqsIndependent_emit _ s a b) <|
      .orStop (frontFrame_congr rfl rfl rfl) fun _ => .next (fun _ => rfl) id

/-- A store reads and writes the buffer alone (R40). -/
theorem SeqsIndependent.store {k : State → Out} (hk : SeqsIndependent k) (addr : Nat) (bytes : List Byte) :
    SeqsIndependent fun s => orStop (s.writeBytes addr bytes) k := by
  intro s a b
  beta_reduce
  by_cases hfit : addr + bytes.length ≤ s.cfg.maxFrame
  · rw [State.writeBytes_inside hfit, State.writeBytes_inside (s := s.setSeqs a b) hfit]
    exact hk (s.setBuf _) a b
  · rw [State.writeBytes, if_neg hfit]
    exact .fault _ _

theorem seqsIndependent_append (data : List Byte) : SeqsIndependent (append data) := fun s a b =>
  SeqsIndependent.store (fun t => seqsIndependent_scan (t.setRcv (s.rcv + data.length))) s.rcv data s a b

/-- The leftover shift reads and writes the buffer alone (R111, R112). -/
theorem seqsIndependent_releaseFrame : SeqsIndependent releaseFrame := fun s a b =>
  .orStop (readWord_congr rfl rfl rfl 8) fun len0 => .ite .rfl (.fault _ _) <|
    .orStop (readBytes_congr (s := s) (t := s.setSeqs a b) rfl rfl _ _) fun left =>
      SeqsIndependent.store
        (fun t => seqsIndependent_scan ((t.setRcv (s.rcv - (hdrLen + len0.toNat))).setPhase .idle)) 0 left s a b

/-- FILL's checks read the operands and the room in the buffer (R102). -/
theorem seqsIndependent_fillIdle (r : Int) (data : List Byte) : SeqsIndependent (fillIdle r data) := fun s a b =>
  .ite .rfl (seqsIndependent_raise _ s a b) <| .ite .rfl (seqsIndependent_emit _ s a b) <|
    .ite .rfl (seqsIndependent_raise _ s a b) (seqsIndependent_append data s a b)

/-- A FILL held in PRESENT is held whatever the sequence registers are (R145). -/
theorem SeqsIndependent.unlessPresent {k : State → Out} (hk : SeqsIndependent k) :
    SeqsIndependent fun s => unlessPresent s k :=
  fun s a b => .ite .rfl (.next id id) (hk s a b)

/-- What the Transport delivers and what stays with it depend on the room in the buffer alone. -/
theorem seqsIndependent_deliver (kind : BitVec 4) (d : BitVec 12) (body : FrameBody) :
    SeqsIndependent (deliver kind d body) := by
  refine SeqsIndependent.unlessPresent fun s a b => ?_
  have hputBack (rest : List Byte) : (s.setSeqs a b).putBack rest = (s.putBack rest).setSeqs a b := by
    unfold State.putBack
    split <;> rfl
  have hfill (n : Int) (octets rest : List Byte) := seqsIndependent_fillIdle n octets (s.putBack rest) a b
  simp only [← hputBack, State.putBack_seqIn, State.putBack_seqOut] at hfill
  exact hfill _ _ _

theorem seqsIndependent_ownEffect (i : Instr) : SeqsIndependent (ownEffect i) := by
  cases i
  case init => exact fun _ _ _ => .next (fun _ => rfl) fun _ => rfl
  case fill r data => exact (seqsIndependent_fillIdle r data).unlessPresent
  case release => exact fun s a b => .ite .rfl (seqsIndependent_releaseFrame s a b) (seqsIndependent_raise _ s a b)
  case decode operand =>
    intro s a b
    simp only [ownEffect, withHeader, State.setSeqOut_cfg, State.setSeqIn_cfg]
    cases hdrDecode s.cfg operand with
    | none => exact seqsIndependent_raise _ s a b
    | some hdr => exact seqsIndependent_emit _ s a b
  case encode => exact fun s a b => .ite .rfl (seqsIndependent_raise _ s a b) (seqsIndependent_emit _ s a b)
  case seqNext => exact fun _ _ _ => .next id (congrArg (· + 1#16))
  all_goals exact seqsIndependent_deliver _ _ _

/-- The common checks read the fault register and the phase (R127). -/
theorem seqsIndependent_exec (i : Instr) : SeqsIndependent (exec i) := by
  intro s a b
  cases hf : s.fault with
  | some c => rw [exec_faulted hf]; exact .fault _ _
  | none =>
    by_cases hi : i = .init
    · subst hi
      rw [exec_init, exec_init, unlessFaulted_none hf, unlessFaulted_none (s := s.setSeqs a b) hf]
      exact seqsIndependent_ownEffect .init s a b
    · rw [exec_checked hi, exec_checked hi, whenInitialised, whenInitialised, unlessFaulted_none hf,
        unlessFaulted_none (s := s.setSeqs a b) hf]
      exact .ite .rfl (seqsIndependent_raise _ s a b) (seqsIndependent_ownEffect i s a b)

/-- Settles O37: each register is kept as it is while the other is changed, and only INIT is neither SEQ_NEXT's count
nor a capture. -/
theorem sequenceRegistersIndependent : Obligations.SequenceRegistersIndependent := by
  intro s t i v h
  refine ⟨?_, ?_, fun hi => ?_⟩
  · obtain ⟨u, hu, -, hout⟩ := seqsIndependent_exec i s v s.seqOut t h
    exact ⟨u, hu, hout rfl⟩
  · obtain ⟨u, hu, hin, -⟩ := seqsIndependent_exec i s s.seqIn v t h
    exact ⟨u, hu, hin rfl⟩
  · obtain ⟨-, -, rfl⟩ | ⟨-, hcaptures⟩ := (exec_answers h).2.seq_cases hi
    · exact .inl rfl
    · exact .inr hcaptures.seqOut

end Sys2Proof.Machine
end

section
/-! SUPPORT. The values SEQ_NEXT reports over a run without INIT (spec/41_sequence.md R92, R96). -/

namespace Sys2Proof.Machine

/-- The first `n` values counted up from `v`: `v + 1` to `v + n` modulo 2^16 (R96). -/
def countedFrom (v : Word) (n : Nat) : List Word := (List.range n).map fun k => v + BitVec.ofNat 16 (k + 1)

theorem add_ofNat_add_ofNat (v : Word) (n m : Nat) :
    v + BitVec.ofNat 16 n + BitVec.ofNat 16 m = v + BitVec.ofNat 16 (n + m) := by
  rw [BitVec.add_assoc, BitVec.ofNat_add]

/-- Counting goes on from the last value. -/
theorem countedFrom_add (v : Word) (n m : Nat) :
    countedFrom v (n + m) = countedFrom v n ++ countedFrom (v + BitVec.ofNat 16 n) m := by
  simp [countedFrom, List.range_add, add_ofNat_add_ofNat, Nat.add_assoc]

/-- `t` has `n` more counted values on its trace than `s`, and `seq_out` is the last of them. -/
def CountsUp (s t : State) (n : Nat) : Prop :=
  seqValues t.trace = seqValues s.trace ++ countedFrom s.seqOut n ∧ t.seqOut = s.seqOut + BitVec.ofNat 16 n

theorem CountsUp.trans {s t u : State} {n m : Nat} (hst : CountsUp s t n) (htu : CountsUp t u m) :
    CountsUp s u (n + m) := by
  obtain ⟨hvalues, hout⟩ := hst
  obtain ⟨hvalues', hout'⟩ := htu
  refine ⟨?_, ?_⟩
  · rw [hvalues', hvalues, hout, countedFrom_add, List.append_assoc]
  · rw [hout', hout, add_ofNat_add_ofNat]

theorem CapturesOnly.countsUp {s t : State} (h : CapturesOnly s t) : CountsUp s t 0 :=
  ⟨by simp [h.values, countedFrom], by simp [h.seqOut]⟩

/-- An instruction other than INIT counts where it is SEQ_NEXT, and then once; before INIT it does not count. -/
theorem exec_countsUp {i : Instr} {s t : State} (h : exec i s = .next t) (hi : i ≠ .init) :
    ∃ n, CountsUp s t n ∧ (s.phase ≠ .uninit → n = [i].count .seqNext) := by
  obtain ⟨rfl, -, rfl⟩ | ⟨huninit, hcaptures⟩ := (exec_answers h).2.seq_cases hi
  · exact ⟨1, ⟨by simp [seqValues_append, seqValues, countedFrom], rfl⟩, fun _ => by simp⟩
  · exact ⟨0, hcaptures.countsUp, fun hp => by simp [mt huninit hp]⟩

/-- A run that answers has run its first instruction and then the rest. -/
theorem runAll_cons_next {i : Instr} {is : List Instr} {s t : State} (h : runAll (i :: is) s = .next t) :
    ∃ u, exec i s = .next u ∧ runAll is u = .next t := by
  simp only [runAll] at h
  split at h
  · exact ⟨_, ‹_›, h⟩
  · cases h
  · cases h

theorem runAll_cons_of_next {i : Instr} {s u : State} (h : exec i s = .next u) (is : List Instr) :
    runAll (i :: is) s = runAll is u := by
  simp only [runAll, h]

/-- Over a run without INIT the counts of its instructions add up. -/
theorem runAll_countsUp {is : List Instr} {s t : State} (hi : .init ∉ is) (h : runAll is s = .next t) :
    ∃ n, CountsUp s t n ∧ (s.phase ≠ .uninit → n = is.count .seqNext) := by
  induction is generalizing s with
  | nil => cases h; exact ⟨0, ⟨by simp [countedFrom], by simp⟩, fun _ => rfl⟩
  | cons i is ih =>
    obtain ⟨hne, hrest⟩ := not_or.mp (mt List.mem_cons.mpr hi)
    obtain ⟨u, hexec, hrun⟩ := runAll_cons_next h
    obtain ⟨n, hcount, hn⟩ := exec_countsUp hexec (Ne.symm hne)
    obtain ⟨m, hcount', hm⟩ := ih hrest hrun
    refine ⟨n + m, hcount.trans hcount', fun hp => ?_⟩
    rw [hn hp, hm ((exec_answers hexec).2.phase_ne_uninit (.inr hp)), ← List.count_append, List.singleton_append]

/-- SEQ_NEXT neither faults nor leaves its phase in an initialised block, so any number of them runs (R92). -/
theorem runAll_seqNext {s : State} (n : Nat) (hf : s.fault = none) (hp : s.phase ≠ .uninit) :
    ∃ t, runAll (List.replicate n .seqNext) s = .next t := by
  induction n generalizing s with
  | zero => exact ⟨s, rfl⟩
  | succ n ih =>
    rw [List.replicate_succ, runAll_cons_of_next (exec_seqNext hf hp)]
    exact ih hf hp

/-- Fewer than 2^16 steps apart, two counted values differ. -/
theorem counted_inj {v : Word} {j k : Nat} (hj : j < 65536) (hk : k < 65536)
    (h : v + BitVec.ofNat 16 (j + 1) = v + BitVec.ofNat 16 (k + 1)) : j = k := by
  have hmod := congrArg BitVec.toNat (BitVec.add_right_inj v |>.mp h)
  simp only [BitVec.toNat_ofNat] at hmod
  omega

/-- Settles O38: the counts of a run add up, a run of SEQ_NEXT goes on, and 2^16 consecutive words differ. -/
theorem outboundNumbersCountUp : Obligations.OutboundNumbersCountUp := by
  refine ⟨fun s t is hi h => ?_, fun s n hf hp => ?_, fun v j k hj hk hne h => hne (counted_inj hj hk h)⟩
  · obtain ⟨n, ⟨hvalues, hout⟩, hn⟩ := runAll_countsUp hi h
    exact ⟨n, hvalues, hout, fun hp _ => hn hp⟩
  · obtain ⟨t, ht⟩ := runAll_seqNext n hf hp
    obtain ⟨m, ⟨-, hout⟩, hm⟩ := runAll_countsUp (by simp [List.mem_replicate]) ht
    rw [hm hp, List.count_replicate_self] at hout
    exact ⟨t, ht, hout⟩

end Sys2Proof.Machine
end

section
/-! SUPPORT. SCAN's outcomes as equations over the bytes held (spec/42_reassembler.md R105 to R109), and the delivery of stream octets by FILL. -/

namespace Sys2Proof.Machine

/-- SCAN discards a header whose `len` is over MAX_PAYLOAD, however few payload bytes there are (R107). -/
theorem scan_oversize {s : State} {bs : List Byte} (h : Holds s bs) (hl : hdrLen ≤ bs.length)
    (hover : s.cfg.maxPayload.val < (frontLen s.cfg bs).toNat) :
    scan s = .next ((s.setRcv 0).log (.event (.oversize (frontLen s.cfg bs) s.rcv))) := by
  rw [scan, h.1, if_neg (by omega), readWord_of_holds h hl, orStop_ok, if_pos hover, emit]

/-- SCAN waits for the payload of an admitted header (R108). -/
theorem scan_needPayload {s : State} {bs : List Byte} (h : Holds s bs) (hl : hdrLen ≤ bs.length)
    (hmax : (frontLen s.cfg bs).toNat ≤ s.cfg.maxPayload.val)
    (hpart : bs.length < hdrLen + (frontLen s.cfg bs).toNat) :
    scan s = .next (s.log (.event (.needPayload s.rcv (hdrLen + (frontLen s.cfg bs).toNat)))) := by
  rw [scan, h.1, if_neg (by omega), readWord_of_holds h hl, orStop_ok, if_neg (by omega), if_pos hpart, emit]

/-- SCAN presents a whole admitted frame and captures its `seq` (R109, R91). -/
theorem scan_frame_of_whole {s : State} {bs : List Byte} (h : Holds s bs)
    (hmax : (frontLen s.cfg bs).toNat ≤ s.cfg.maxPayload.val)
    (hwhole : hdrLen + (frontLen s.cfg bs).toNat ≤ bs.length) :
    ∃ hdr, hdrDecode s.cfg (bs.take hdrLen) = some hdr ∧
      scan s = .next (((s.setSeqIn hdr.seq).setPhase .present).log
        (.event (.frame hdr ((bs.drop hdrLen).take (frontLen s.cfg bs).toNat)))) := by
  have hl : hdrLen ≤ bs.length := by omega
  obtain ⟨hdr, hdec, hlen, hfront⟩ := frontFrame_of_whole h hl hwhole
  refine ⟨hdr, hdec, ?_⟩
  rw [scan, h.1, if_neg (by omega), readWord_of_holds h hl, orStop_ok, if_neg (by omega), if_neg (by omega), hfront,
    orStop_ok, hlen, emit]

/-- Settles O20: one equation per outcome; the discard keeps the cells as they are. -/
theorem scanOutcomesFromHeldBytes : Obligations.ScanOutcomesFromHeldBytes := by
  intro s bs h
  exact ⟨fun hshort => if_pos (h.1 ▸ hshort), fun hl hover => ⟨s.buf, scan_oversize h hl hover⟩,
    fun hl hmax hpart => scan_needPayload h hl hmax hpart, fun hmax hwhole => scan_frame_of_whole h hmax hwhole⟩

/-- Settles O52: octets that are one frame are a frame row, and that is the same FILL. -/
theorem streamIsDeliveredByFill : Obligations.StreamIsDeliveredByFill := fun _ _ _ hf hp hin => step_stream hf hp hin

end Sys2Proof.Machine
end

section
/-! SUPPORT. Every outcome of FILL, of RELEASE and of a frame row over the bytes the block holds (spec/42_reassembler.md R101 to R104, R111, R112). -/

namespace Sys2Proof.Machine

theorem Memory.read_writeBytes_inside (m : Memory) (a : Nat) {bs : List Byte} {k : Nat} (hk : k < bs.length) :
    (m.writeBytes a bs).read (a + k) = bs[k]? := by
  rw [Memory.read_writeBytes, if_pos (by omega), Nat.add_sub_cancel_left]

theorem Memory.read_writeBytes_outside (m : Memory) {a c : Nat} {bs : List Byte} (hc : c < a ∨ a + bs.length ≤ c) :
    (m.writeBytes a bs).read c = m.read c := by
  rw [Memory.read_writeBytes, if_neg (by omega)]

/-- Before INIT every other instruction raises F_UNINIT with its code (R127 item 3, R141). -/
theorem exec_uninit {i : Instr} {s : State} (hi : i ≠ .init) (hf : s.fault = none) (hp : s.phase = .uninit) :
    exec i s = .next (s.raised (.uninit i.code)) := by
  rw [exec_checked hi, whenInitialised_uninit hf hp, raise]

/-- In IDLE a FILL is its own checks and effect. -/
theorem exec_fill_idle {s : State} (hf : s.fault = none) (hp : s.phase = .idle) (r : Int) (data : List Byte) :
    exec (.fill r data) s = fillIdle r data s := by
  rw [exec_ready hf (by simp [hp])]
  exact if_neg (by simp [hp])

/-- In PRESENT a FILL holds (R145). -/
theorem exec_fill_present {s : State} (hf : s.fault = none) (hp : s.phase = .present) (r : Int) (data : List Byte) :
    exec (.fill r data) s = .next s := by
  rw [exec_ready hf (by simp [hp])]
  exact if_pos hp

/-- A FILL of some bytes within `space` stores them at `rcv` and scans them with the bytes held (R104). -/
theorem exec_fill_append {s : State} {bs data : List Byte} (hf : s.fault = none) (hp : s.phase = .idle)
    (h : Holds s bs) (hne : data ≠ []) (hfit : data.length ≤ s.space) :
    ∃ t, exec (.fill (data.length : Nat) data) s = .next t ∧ t.buf = s.buf.writeBytes s.rcv data ∧
      Scanned s t (bs ++ data) := by
  have hpos : 0 < data.length := List.length_pos_iff.mpr hne
  rw [exec_fill_idle hf hp, fillIdle_append hne hfit]
  exact append_of_holds h hp (by unfold State.space at hfit; omega)

/-- Settles O21: FILL's checks in their order, and the append behind them. -/
theorem fillOutcomes : Obligations.FillOutcomes := by
  intro s bs data r hf h
  refine ⟨fun hp => exec_uninit (by simp) hf hp, fun hp => exec_fill_present hf hp r data,
    fun hp => ⟨fun hlen => ?_, fun hlen hr => ?_, fun hlen hover => ?_, fun hlen hr hfit => ?_⟩⟩
  · rw [exec_fill_idle hf hp, fillIdle]
    exact if_pos hlen
  · rw [exec_fill_idle hf hp, fillIdle, if_neg (by simpa using hlen), if_pos hr, emit]
  · rw [exec_fill_idle hf hp, fillIdle, if_neg (by simpa using hlen), if_neg (by omega)]
    exact if_pos hover
  · subst hlen
    obtain ⟨t, hexec, hbuf, hscan⟩ := exec_fill_append hf hp h (List.ne_nil_of_length_pos (by omega))
      (Int.ofNat_le.mp hfit)
    refine ⟨t, hexec, hscan, fun _ => ⟨fun k hk => ?_, fun a ha => ?_⟩⟩
    · rw [hbuf, Memory.read_writeBytes_inside _ _ hk]
    · rw [hbuf, Memory.read_writeBytes_outside _ ha]

/-- In PRESENT a RELEASE is the leftover shift. -/
theorem exec_release_present {s : State} (hf : s.fault = none) (hp : s.phase = .present) :
    exec .release s = releaseFrame s := by
  rw [exec_ready hf (by simp [hp])]
  exact if_pos hp

/-- In IDLE there is no frame to release (R111). -/
theorem exec_release_idle {s : State} (hf : s.fault = none) (hp : s.phase = .idle) :
    exec .release s = .next (s.raised .releaseIdle) := by
  rw [exec_ready hf (by simp [hp])]
  exact if_neg (by simp [hp])

/-- Settles O22: the leftover is written at address 0 and scanned. -/
theorem releaseOutcomes : Obligations.ReleaseOutcomes := by
  intro s bs hf h
  refine ⟨fun hp => exec_uninit (by simp) hf hp, fun hp => exec_release_idle hf hp, fun hp hbound hwhole => ?_⟩
  obtain ⟨t, hrelease, hbuf, hscan⟩ := releaseFrame_of_holds h hbound (by omega) hwhole
  refine ⟨t, (exec_release_present hf hp).trans hrelease, hscan, fun _ => ⟨fun k hk => ?_, fun a ha => ?_⟩⟩
  · have hread := Memory.read_writeBytes_inside s.buf 0 hk
    rwa [Nat.zero_add, ← hbuf] at hread
  · rw [hbuf, Memory.read_writeBytes_outside _ (.inr (by rwa [Nat.zero_add]))]

/-- The octets a frame row is encoded as are those the Transport holds of it (R60). -/
theorem rowOctets_of_encode {s : State} {i : Instr} {kind : BitVec 4} {d : BitVec 12} {b : FrameBody}
    {octets : List Byte} (hrow : (i, kind) ∈ frameRows d b) (h : encode s.cfg i = .stream octets) :
    rowOctets s kind d b = octets := by
  obtain ⟨hencode, -⟩ := frameRow_spec hrow s.cfg
  exact Input.stream.inj (hencode.symm.trans h)

/-- Settles O27: in IDLE the row is the FILL of its first `space` octets, and a frame has octets to deliver. -/
theorem frameRowsAreReceived : Obligations.FrameRowsAreReceived := by
  intro s bs d b i kind octets hrow hencode hf
  obtain rfl := rowOctets_of_encode hrow hencode
  obtain ⟨-, -, hcode, hinit, -⟩ := frameRow_spec hrow s.cfg
  refine ⟨fun hp => hcode ▸ exec_uninit hinit hf hp, fun hp h hroom => ?_⟩
  have hne : (rowOctets s kind d b).take s.space ≠ [] := by
    apply List.ne_nil_of_length_pos
    rw [List.length_take, frameOctets_length, State.space]
    omega
  obtain ⟨t, hexec, hbuf, hscan⟩ := exec_fill_append (s := s.putBack ((rowOctets s kind d b).drop s.space))
    (by simpa using hf) (by simpa using hp) (h.congr (State.putBack_rcv ..) (State.putBack_buf ..)) hne (by simp)
  rw [State.putBack_buf, State.putBack_rcv] at hbuf
  exact ⟨t, (exec_row_idle hrow hf hp).trans hexec, hscan,
    fun a ha => by rw [hbuf, Memory.read_writeBytes_outside _ ha]⟩

end Sys2Proof.Machine
end

section
/-! SUPPORT. What FILL, RELEASE and the frame rows leave unchanged (spec/42_reassembler.md R102, R104, R111, R112; spec/60_exceptions.md R123). -/

namespace Sys2Proof.Machine

/-- Neither before INIT nor with a frame presented, the block is in IDLE (R22). -/
theorem phase_idle_of_ne {s : State} (hready : s.phase ≠ .uninit) (hp : s.phase ≠ .present) : s.phase = .idle := by
  cases e : s.phase <;> simp_all

/-- What a FILL that answers has done: raise a fault, hold, report no data, or append (R102). -/
theorem exec_fill_next {s t : State} {r : Int} {data : List Byte} (h : exec (.fill r data) s = .next t) :
    (∃ f, t = s.raised f) ∨ t = s ∨ (r ≤ 0 ∧ t = s.log (.event (.noData r))) ∨
      (s.fault = none ∧ s.phase = .idle ∧ 0 < r ∧ append data s = .next t) := by
  obtain ⟨hf, ⟨hinit, -⟩ | ⟨-, -, hraise⟩ | ⟨-, hready, hown⟩⟩ := exec_next h
  · simp at hinit
  · cases hraise
    exact .inl ⟨_, rfl⟩
  · obtain ⟨-, hheld⟩ | ⟨hp, hidle⟩ := unlessPresent_next hown
    · exact .inr (.inl hheld)
    · obtain ⟨-, hraise⟩ | ⟨-, hr, hnodata⟩ | ⟨-, -, -, hraise⟩ | ⟨-, hr, -, happend⟩ := fillIdle_next hidle
      · cases hraise
        exact .inl ⟨_, rfl⟩
      · exact .inr (.inr (.inl ⟨hr, hnodata⟩))
      · cases hraise
        exact .inl ⟨_, rfl⟩
      · exact .inr (.inr (.inr ⟨hf, phase_idle_of_ne hready hp, hr, happend⟩))

/-- Settles O28: only the append writes a cell, `rcv`, the phase or `seq_in`, and it has bytes and raises no fault. -/
theorem fillLeavesTheRest : Obligations.FillLeavesTheRest := by
  intro s t r data h
  obtain ⟨f, rfl⟩ | rfl | ⟨-, rfl⟩ | ⟨hf, hp, hr, happend⟩ := exec_fill_next h
  · simp
  · simp
  · simp
  · obtain ⟨hcfg, hout, hin, hfault, hbuf, hrcv, hphase⟩ := append_frame happend
    refine ⟨hcfg, hout, hin, fun a ha => by rw [hbuf, Memory.read_writeBytes_outside _ ha], .inr hrcv,
      hphase.imp And.left (⟨hp, ·⟩), fun hsame => ?_, fun hno => ?_⟩
    · obtain ⟨-, hseq⟩ | hpresent := hphase
      · exact hseq
      · simp [hpresent, hp] at hsame
    · obtain hraised | hnone | hnot := hno
      · exact absurd (hfault.trans hf) hraised
      · omega
      · exact absurd hp hnot

/-- What a RELEASE that answers has done: raise a fault outside PRESENT, or release the presented frame (R111). -/
theorem exec_release_next {s t : State} (h : exec .release s = .next t) :
    (s.phase ≠ .present ∧ ∃ f, t = s.raised f) ∨
      (s.fault = none ∧ s.phase = .present ∧ releaseFrame s = .next t) := by
  obtain ⟨hf, ⟨hinit, -⟩ | ⟨-, hp, hraise⟩ | ⟨-, -, hown⟩⟩ := exec_next h
  · simp at hinit
  · cases hraise
    exact .inl ⟨by simp [hp], _, rfl⟩
  · simp only [ownEffect] at hown
    split at hown
    · exact .inr ⟨hf, ‹_›, hown⟩
    · cases hown
      exact .inl ⟨‹_›, _, rfl⟩

/-- Settles O29: the leftover is written below its own length, and SCAN captures `seq_in` only with a frame. -/
theorem releaseLeavesTheRest : Obligations.ReleaseLeavesTheRest := by
  intro s t h
  obtain ⟨hp, f, rfl⟩ | ⟨hf, hp, hrelease⟩ := exec_release_next h
  · simp [hp]
  · obtain ⟨len0, left, hword, hwhole, -, hleft, -, hscan⟩ := releaseFrame_next hrelease
    obtain ⟨hcfg, hout, hin, hfault, hbuf, -, hphase⟩ := scan_frame hscan
    refine ⟨hcfg, hout, hin, absurd hp,
      fun _ => ⟨hfault.trans hf, fun hidle => ?_, len0, hword, hwhole, fun a ha => ?_⟩⟩
    · obtain ⟨-, hseq⟩ | hpresent := hphase
      · exact hseq
      · simp [hpresent] at hidle
    · rw [hbuf]
      exact Memory.read_writeBytes_outside _ (.inr (by omega))

/-- Outside IDLE a frame row that answers has raised F_UNINIT or holds (log 7, log 17). -/
theorem exec_row_not_idle {i : Instr} {kind : BitVec 4} {d : BitVec 12} {b : FrameBody} {s t : State}
    (hrow : (i, kind) ∈ frameRows d b) (hp : s.phase ≠ .idle) (h : exec i s = .next t) :
    (∃ f, t = s.raised f) ∨ t = s := by
  obtain ⟨-, -, -, hinit, heffect⟩ := frameRow_spec hrow s.cfg
  obtain ⟨-, ⟨hi, -⟩ | ⟨-, -, hraise⟩ | ⟨-, hready, hown⟩⟩ := exec_next h
  · exact absurd hi hinit
  · cases hraise
    exact .inl ⟨_, rfl⟩
  · rw [heffect] at hown
    obtain ⟨-, hsame⟩ | ⟨hpresent, -⟩ := unlessPresent_next hown
    · exact .inr hsame
    · exact absurd (phase_idle_of_ne hready hpresent) hp

/-- Settles O31: in IDLE a row leaves what the FILL of its delivered octets leaves, and it stores nothing elsewhere. -/
theorem frameRowsLeaveTheRest : Obligations.FrameRowsLeaveTheRest := by
  intro s t d b i kind octets hrow hencode h
  obtain rfl := rowOctets_of_encode hrow hencode
  by_cases hp : s.phase = .idle
  · rw [exec_row_idle hrow (exec_answers h).1 hp] at h
    obtain ⟨hcfg, hout, hin, hcells, -, -, hseq, -⟩ := fillLeavesTheRest _ _ _ _ h
    simp only [State.putBack_cfg, State.putBack_seqOut, State.putBack_inputs, State.putBack_rcv, State.putBack_buf,
      State.putBack_phase, State.putBack_seqIn] at hcfg hout hin hcells hseq
    refine ⟨hcfg, hout, ?_, hcells, hseq, absurd hp⟩
    by_cases hrest : (rowOctets s kind d b).drop s.space = []
    · exact .inl (by rw [hin, hrest, undelivered_nil, List.nil_append])
    · exact .inr (by rw [hin, undelivered_of_ne_nil hrest, List.singleton_append])
  · obtain ⟨f, rfl⟩ | rfl := exec_row_not_idle hrow hp h <;> simp

end Sys2Proof.Machine
end

section
/-! SUPPORT. A frame is reported only where the block holds all of it (spec/42_reassembler.md R108, R115). -/

namespace Sys2Proof.Machine

/-- The block holds the whole frame of this header and payload, and admits its length (R115). -/
def HoldsFrame (t : State) (hdr : Header) (payload : List Byte) : Prop :=
  hdrLen + hdr.len.toNat ≤ t.rcv ∧ hdr.len.toNat ≤ t.cfg.maxPayload.val ∧ payload.length = hdr.len.toNat ∧
    ∀ k, k < payload.length → t.buf.read (hdrLen + k) = payload[k]?

/-- The header of a frame read from the buffer declares the length at address 8 (R47, R65). -/
theorem frontFrame_len_of_readWord {s : State} {hdr : Header} {payload : List Byte} {len0 : Word}
    (hfront : s.frontFrame = .ok (hdr, payload)) (hw : s.readWord 8 = .ok len0) : hdr.len = len0 := by
  obtain ⟨octets, hread, hdec, -⟩ := frontFrame_ok hfront
  obtain ⟨-, -, hcells⟩ := readBytes_ok hread
  obtain ⟨x, y, hx, hy, rfl⟩ := readWord_ok hw
  have h8 : octets[8]? = some x := (hcells 8 (by decide)).symm.trans (readByte_some hx).2
  have h9 : octets[9]? = some y := (hcells 9 (by decide)).symm.trans (readByte_some hy).2
  rw [hdrDecode_len hdec, frontLen, h8, h9, Option.getD_some, Option.getD_some]

/-- SCAN reports a frame only with all its bytes held (R108, R115). -/
theorem scan_holdsFrame {s t : State} {hdr : Header} {payload : List Byte} (h : scan s = .next t)
    (htrace : t.trace = s.trace ++ [.event (.frame hdr payload)]) : HoldsFrame t hdr payload := by
  obtain ⟨-, rfl⟩ | ⟨-, len0, hw, ⟨-, rfl⟩ | ⟨-, -, rfl⟩ | ⟨hmax, hwhole, front, bytes, hfront, rfl⟩⟩ := scan_next h
  · simp at htrace
  · simp at htrace
  · simp at htrace
  · obtain ⟨rfl, rfl⟩ : front = hdr ∧ bytes = payload := by simpa using htrace
    obtain rfl := frontFrame_len_of_readWord hfront hw
    obtain ⟨-, -, -, hpayload⟩ := frontFrame_ok hfront
    obtain ⟨hlength, -, hcells⟩ := readBytes_ok hpayload
    exact ⟨hwhole, hmax, hlength, fun k hk => hcells k (hlength ▸ hk)⟩

/-- An append reports a frame only with all its bytes held: nothing but its SCAN reports. -/
theorem append_holdsFrame {s t : State} {data payload : List Byte} {hdr : Header} (h : append data s = .next t)
    (htrace : t.trace = s.trace ++ [.event (.frame hdr payload)]) : HoldsFrame t hdr payload :=
  scan_holdsFrame (append_next h).2 htrace

/-- A RELEASE reports the next frame only with all its bytes held. -/
theorem releaseFrame_holdsFrame {s t : State} {payload : List Byte} {hdr : Header} (h : releaseFrame s = .next t)
    (htrace : t.trace = s.trace ++ [.event (.frame hdr payload)]) : HoldsFrame t hdr payload := by
  obtain ⟨_, _, -, -, -, -, -, hscan⟩ := releaseFrame_next h
  exact scan_holdsFrame hscan htrace

/-- Settles O40: only the outcomes that end in SCAN report a frame. -/
theorem noOverRead : Obligations.NoOverRead := by
  intro s t i hdr payload h htrace
  change HoldsFrame t hdr payload
  obtain ⟨-, hanswers⟩ := exec_answers h
  cases hanswers
  case fill happend => exact append_holdsFrame happend htrace
  case row happend => exact append_holdsFrame happend (by simpa using htrace)
  case release hrelease => exact releaseFrame_holdsFrame hrelease htrace
  all_goals simp at htrace

end Sys2Proof.Machine
end

section
/-! SUPPORT. One frame in many FILLs, and two frames in one FILL (spec/42_reassembler.md R118). -/

namespace Sys2Proof.Machine

/-- SCAN of less than a header waits for one (R106). -/
theorem Scanned.short {s t : State} {bs : List Byte} (h : Scanned s t bs) (hl : bs.length < hdrLen) :
    t.phase = .idle ∧ Holds t bs ∧ t.seqIn = s.seqIn ∧ t.trace = s.trace ++ [.event (.needHeader bs.length)] := by
  obtain ⟨-, -, -, -, h⟩ := h
  rwa [if_pos hl] at h

/-- What SCAN appends to the trace is one event, and `seq_in` is the header's `seq` where that event reports a frame
(R91, R128). -/
theorem Scanned.one_event {s t : State} {bs : List Byte} (h : Scanned s t bs) :
    ∃ e, t.trace = s.trace ++ [.event e] ∧ ∀ hdr payload, e = .frame hdr payload → t.seqIn = hdr.seq := by
  obtain ⟨-, -, -, -, h⟩ := h
  split at h
  · obtain ⟨-, -, -, htrace⟩ := h
    exact ⟨_, htrace, by simp⟩
  · split at h
    · obtain ⟨-, -, -, htrace⟩ := h
      exact ⟨_, htrace, by simp⟩
    · split at h
      · obtain ⟨-, -, -, htrace⟩ := h
        exact ⟨_, htrace, by simp⟩
      · obtain ⟨-, -, hdr, -, hseq, htrace⟩ := h
        exact ⟨_, htrace, by simp [hseq]⟩

/-- Only EV_FRAME carries a frame (R110). -/
theorem eq_frame_of_framesOf {e : Event} {hdr : Header} {payload : List Byte}
    (h : framesOf [.event e] = [(hdr, payload)]) : e = .frame hdr payload := by
  cases e <;> simp_all [framesOf]

/-- SCAN's one event presents the whole admitted frame at the front of the bytes held (R91, R109). -/
theorem Scanned.front {s t : State} {bs f : List Byte} (h : Scanned s t bs) (hf : WholeFrame s.cfg f)
    (hpre : f <+: bs) :
    t.phase = .present ∧ Holds t bs ∧ ∃ hdr, hdrDecode s.cfg f = some hdr ∧ t.seqIn = hdr.seq ∧
      t.trace = s.trace ++ [.event (.frame hdr (f.drop hdrLen))] := by
  obtain ⟨hholds, hp, hdr, hdec, hframes⟩ := h.whole hf hpre
  obtain ⟨e, htrace, hseq⟩ := h.one_event
  obtain rfl : e = .frame hdr (f.drop hdrLen) :=
    eq_frame_of_framesOf (List.append_cancel_left (by rw [← framesOf_append, ← htrace, hframes]))
  exact ⟨hp, hholds, hdr, hdec, hseq _ _ rfl, htrace⟩

/-- SCAN's one event reports no frame while only the beginning of an admitted frame is held (R106, R108). -/
theorem Scanned.beginning {s t : State} {bs f : List Byte} (h : Scanned s t bs) (hf : WholeFrame s.cfg f)
    (hpre : bs <+: f) (hlt : bs.length < f.length) :
    t.phase = .idle ∧ Holds t bs ∧ ∃ e, t.trace = s.trace ++ [e] ∧ framesOf [e] = [] := by
  obtain ⟨hholds, hp, hframes⟩ := h.part hf hpre hlt
  obtain ⟨e, htrace, -⟩ := h.one_event
  exact ⟨hp, hholds, _, htrace, List.append_cancel_left (as := framesOf s.trace)
    (by rw [← framesOf_append, ← htrace, hframes, List.append_nil])⟩

/-- From `s`, which holds the bytes `held`, the FILLs of the chunks present the frame `held ++ chunks.flatten` by the last
of them, and report no frame before (R118). -/
theorem runAll_fills_present {s : State} {held : List Byte} {chunks : List (List Byte)} (hf : s.fault = none)
    (hp : s.phase = .idle) (hholds : Holds s held) (hne : ∀ d ∈ chunks, d ≠ []) (hchunks : chunks ≠ [])
    (hwhole : WholeFrame s.cfg (held ++ chunks.flatten)) :
    ∃ t before hdr, runAll (chunks.map fun d => .fill (d.length : Nat) d) s = .next t ∧
      t.trace = s.trace ++ before ++ [.event (.frame hdr ((held ++ chunks.flatten).drop hdrLen))] ∧
      hdrDecode s.cfg (held ++ chunks.flatten) = some hdr ∧ framesOf before = [] ∧
      before.length + 1 = chunks.length ∧ t.phase = .present ∧ Holds t (held ++ chunks.flatten) ∧
      t.seqIn = hdr.seq := by
  induction chunks generalizing s held with
  | nil => exact absurd rfl hchunks
  | cons d ds ih =>
    obtain ⟨hd, hds⟩ := List.forall_mem_cons.mp hne
    rw [List.flatten_cons, ← List.append_assoc] at hwhole ⊢
    have hroom := hwhole.length_le
    obtain ⟨u, hexec, -, hscan⟩ := exec_fill_append hf hp hholds hd
      (by rw [State.space, hholds.1]; simp only [List.length_append] at hroom; omega)
    rw [List.map_cons, runAll_cons_of_next hexec]
    cases ds with
    | nil =>
      rw [List.flatten_nil, List.append_nil] at hwhole ⊢
      obtain ⟨hpresent, hheld, hdr, hdec, hseq, htrace⟩ := hscan.front hwhole (List.prefix_refl _)
      exact ⟨u, [], hdr, rfl, by rw [htrace, List.append_nil], hdec, rfl, rfl, hpresent, hheld, hseq⟩
    | cons c cs =>
      have hc : 0 < c.length := List.length_pos_iff.mpr (hds c List.mem_cons_self)
      obtain ⟨hidle, hheld, e, htrace, hnoframe⟩ := hscan.beginning hwhole (List.prefix_append ..)
        (by simp only [List.flatten_cons, List.length_append]; omega)
      obtain ⟨hcfg, -, hfault, -⟩ := hscan
      obtain ⟨t, before, hdr, hrun, htrace', hdec, hbefore, hcount, hend⟩ :=
        ih (hfault.trans hf) hidle hheld hds (by simp) (hcfg ▸ hwhole)
      refine ⟨t, e :: before, hdr, hrun, ?_, hcfg ▸ hdec, ?_, by simp [← hcount], hend⟩
      · rw [htrace', htrace, List.append_assoc s.trace, List.singleton_append]
      · rw [← List.singleton_append, framesOf_append, hnoframe, hbefore, List.append_nil]

/-- Settles O41: every FILL but the last leaves the beginning of the frame held, and the last completes it. -/
theorem chunkingInvariance : Obligations.ChunkingInvariance := by
  intro s chunks hf hp hrcv hne hwhole
  have hchunks : chunks ≠ [] := by
    rintro rfl
    simpa using hwhole.hdrLen_le
  rw [hdrLen_eq, hdrDecode_take hwhole.hdrLen_le, ← hdrLen_eq]
  exact runAll_fills_present (held := []) hf hp (holds_nil hrcv) hne hchunks hwhole

/-- RELEASE of a whole frame scans exactly what is held behind it (R111, R112). -/
theorem exec_release_scanned {s : State} {f left : List Byte} (hfault : s.fault = none) (hp : s.phase = .present)
    (h : Holds s (f ++ left)) (hf : WholeFrame s.cfg f) (hfit : f.length + left.length ≤ s.cfg.maxFrame) :
    ∃ t, exec .release s = .next t ∧ Scanned s t left := by
  have hlen : hdrLen + (frontLen s.cfg (f ++ left)).toNat = f.length := by
    rw [frontLen_of_prefix hf.hdrLen_le (List.prefix_append ..)]
    exact hf.1.symm
  have hheld : (f ++ left).length = f.length + left.length := List.length_append
  obtain ⟨t, hrelease, -, hscan⟩ := releaseFrame_of_holds h (by rw [h.1]; omega) (by omega) (by omega)
  rw [hlen, List.drop_left] at hscan
  exact ⟨t, (exec_release_present hfault hp).trans hrelease, hscan⟩

/-- Settles O42: the FILL scans both frames, one RELEASE the second, and the next RELEASE an empty buffer. -/
theorem twoFramesInOneRead : Obligations.TwoFramesInOneRead := by
  intro s f g hfault hp hrcv hf hg hfit
  have hpos : 0 < f.length := Nat.lt_of_lt_of_le (by decide) hf.hdrLen_le
  have hdata : f ++ g ≠ [] := List.append_ne_nil_of_left_ne_nil (List.ne_nil_of_length_pos hpos) g
  obtain ⟨t₁, hfill, -, hscan₁⟩ := exec_fill_append hfault hp (holds_nil hrcv) hdata
    (by rwa [State.space, hrcv, List.length_append])
  obtain ⟨hp₁, hheld₁, hdrf, hdecf, -, htrace₁⟩ := hscan₁.front hf (List.prefix_append f g)
  obtain ⟨hcfg₁, hout₁, hfault₁, -⟩ := hscan₁
  rw [← hcfg₁] at hf hg hfit
  obtain ⟨t₂, hrelease₁, hscan₂⟩ := exec_release_scanned (f := f) (left := g) (hfault₁.trans hfault) hp₁ hheld₁
    hf hfit
  obtain ⟨hp₂, hheld₂, hdrg, hdecg, hseq₂, htrace₂⟩ := hscan₂.front hg (List.prefix_refl g)
  obtain ⟨hcfg₂, hout₂, hfault₂, -⟩ := hscan₂
  rw [← hcfg₂] at hg
  obtain ⟨t, hrelease₂, hscan⟩ := exec_release_scanned (left := []) (hfault₂.trans (hfault₁.trans hfault)) hp₂
    (by rwa [List.append_nil]) hg hg.length_le
  obtain ⟨hidle, hempty, hseq, htrace⟩ := hscan.short (by decide)
  obtain ⟨-, hout, -⟩ := hscan
  refine ⟨t, hdrf, hdrg, ?_, hdecf, hcfg₁ ▸ hdecg, ?_, hempty.1, hidle, hseq.trans hseq₂,
    hout.trans (hout₂.trans hout₁)⟩
  · rw [← List.length_append, runAll_cons_of_next hfill, runAll_cons_of_next hrelease₁,
      runAll_cons_of_next hrelease₂, runAll]
  · simp [htrace, htrace₂, htrace₁]

end Sys2Proof.Machine
end

section
/-! SUPPORT. What each outcome of an instruction appends to the trace: nothing where it holds, the event R120 gives it, or the fault R122 gives it (spec/60_exceptions.md R120, R122, R123). -/

namespace Sys2Proof.Machine

/-- SCAN's event depends on the configuration, the bytes held and what is scanned of them alone. -/
theorem Event.ofScanOf.congr {s s' t : State} {held : Nat} {scanned : List Byte → List Byte} {e : Event}
    (h : Event.ofScanOf s' t held scanned e) (hcfg : s'.cfg = s.cfg) (hrcv : s'.rcv = s.rcv) (hbuf : s'.buf = s.buf) :
    Event.ofScanOf s t held scanned e :=
  ⟨h.1, fun bytes hbytes => hcfg ▸ h.2 bytes (hbytes.congr hrcv hbuf)⟩

/-- The length a header in the buffer declares is read off the bytes held (R65). -/
theorem frontLen_of_readWord {s : State} {bytes : List Byte} {len0 : Word} (h : Holds s bytes)
    (hl : hdrLen ≤ s.rcv) (hw : s.readWord 8 = .ok len0) : len0 = frontLen s.cfg bytes :=
  Except.ok.inj (hw.symm.trans (readWord_of_holds h (h.1 ▸ hl)))

/-- A whole frame in the buffer is read off the bytes held (R34, R109). -/
theorem tells_frame {s : State} {bytes payload : List Byte} {hdr : Header} (h : Holds s bytes)
    (hwhole : hdrLen + (frontLen s.cfg bytes).toNat ≤ s.rcv) (hfront : s.frontFrame = .ok (hdr, payload)) :
    Event.tells s.cfg bytes (.frame hdr payload) := by
  rw [h.1] at hwhole
  have hl : hdrLen ≤ bytes.length := by omega
  obtain ⟨hdr', hdec, -⟩ := hdrDecode_some (c := s.cfg) hl
  rw [← hdrDecode_len hdec] at hwhole
  cases hfront.symm.trans (frontFrame_of_holds h hdec hwhole)
  exact ⟨hdec, rfl⟩

/-- SCAN appends one event, with the arguments of R120 (R105 to R109). -/
theorem scan_emits {s t : State} (h : scan s = .next t) :
    ∃ e, t.trace = s.trace ++ [.event e] ∧ Event.ofScanOf s t s.rcv id e ∧ t.fault = s.fault := by
  obtain ⟨hshort, rfl⟩ | ⟨hl, len0, hw, ⟨hover, rfl⟩ | ⟨-, hpart, rfl⟩ | ⟨-, hwhole, hdr, payload, hfront, rfl⟩⟩ :=
    scan_next h
  · exact ⟨_, rfl, ⟨⟨rfl, rfl, hshort⟩, fun _ hb => hb.1⟩, rfl⟩
  · exact ⟨_, rfl, ⟨⟨rfl, rfl, hover⟩, fun _ hb => ⟨hb.1, frontLen_of_readWord hb hl hw⟩⟩, rfl⟩
  · exact ⟨_, rfl, ⟨⟨rfl, rfl, hpart⟩, fun _ hb => ⟨hb.1, by rw [frontLen_of_readWord hb hl hw]; rfl⟩⟩, rfl⟩
  · obtain ⟨-, -, -, hpayload⟩ := frontFrame_ok hfront
    obtain ⟨hlength, -⟩ := readBytes_ok hpayload
    exact ⟨_, rfl, ⟨⟨rfl, hlength⟩, fun _ hb => tells_frame hb (frontLen_of_readWord hb hl hw ▸ hwhole) hfront⟩, rfl⟩

/-- An append scans the bytes held followed by the new ones (R104). -/
theorem append_emits {s t : State} {data : List Byte} (h : append data s = .next t) :
    ∃ e, t.trace = s.trace ++ [.event e] ∧ Event.ofScanOf s t (s.rcv + data.length) (fun bytes => bytes ++ data) e ∧
      t.fault = s.fault := by
  obtain ⟨e, htrace, ⟨hscan, htells⟩, hfault⟩ := scan_emits (append_next h).2
  exact ⟨e, htrace, ⟨hscan, fun _ hb => htells _ (holds_append hb)⟩, hfault⟩

/-- What a MemRead to the end of the valid bytes has read is what is held from there on (R112). -/
theorem eq_drop_of_readBytes {s : State} {bytes left : List Byte} {a : Nat} (h : Holds s bytes) (ha : a ≤ s.rcv)
    (hread : s.readBytes a (s.rcv - a) = .ok left) : left = bytes.drop a := by
  have hr := h.1
  cases hread.symm.trans (readBytes_of_holds h a (s.rcv - a) (by omega))
  exact List.take_of_length_le (by rw [List.length_drop, hr])

/-- A RELEASE scans what is held behind the released frame (R111, R112). -/
theorem releaseFrame_emits {s t : State} (h : releaseFrame s = .next t) :
    ∃ e, t.trace = s.trace ++ [.event e] ∧ Emits s t .release e ∧ t.fault = s.fault := by
  obtain ⟨len0, left, hw, hwhole, hread, hleft, -, hscan⟩ := releaseFrame_next h
  obtain ⟨e, htrace, ⟨hevent, htells⟩, hfault⟩ := scan_emits hscan
  refine ⟨e, htrace, ⟨len0, _, hw, Nat.add_sub_of_le hwhole, hevent, fun bytes hb => htells _ ?_⟩, hfault⟩
  rw [← eq_drop_of_readBytes hb hwhole hread, ← hleft]
  exact holds_shift.congr rfl rfl

/-- A frame row emits the event of its octets (log 7). -/
theorem emits_row {s t : State} {i : Instr} {kind : BitVec 4} {d : BitVec 12} {b : FrameBody} {e : Event}
    (hrow : (i, kind) ∈ frameRows d b) (hevent : Event.ofRow s t (rowOctets s kind d b) e) : Emits s t i e := by
  simp only [frameRows, List.mem_cons, Prod.mk.injEq, List.not_mem_nil, or_false] at hrow
  rcases hrow with h | h | h | h | h | h | h | h | h | h | h | h | h | h | h | h <;>
    obtain ⟨rfl, rfl⟩ := h <;> exact hevent

/-- Every outcome of an instruction holds, completes with the event R120 gives it, or raises the fault R122 gives it. -/
theorem Answers.holds_emits_or_raises {s t : State} {i : Instr} (h : Answers s i t) (hf : s.fault = none) :
    (t = s ∧ s.phase = .present ∧ i.code = 0b0010#4) ∨
    (∃ e, t.trace = s.trace ++ [.event e] ∧ Emits s t i e ∧ t.fault = none) ∨
    ∃ f, Raises s i f ∧ t = s.raised f := by
  cases h
  case held hp hc => exact .inl ⟨rfl, hp, hc⟩
  case init => exact .inr (.inl ⟨_, rfl, rfl, hf⟩)
  case noData hr => exact .inr (.inl ⟨_, rfl, .inl ⟨hr, rfl⟩, hf⟩)
  case fill hr _ happend =>
    obtain ⟨e, htrace, hevent, hfault⟩ := append_emits happend
    exact .inr (.inl ⟨e, htrace, .inr ⟨hr, hevent⟩, hfault.trans hf⟩)
  case rowNoData hs hrow =>
    exact .inr (.inl ⟨_, by simp, emits_row hrow (.inl ⟨hs, rfl⟩), by simp [hf]⟩)
  case row hs hrow happend =>
    obtain ⟨e, htrace, hevent, hfault⟩ := append_emits happend
    simp only [State.putBack_trace, State.putBack_rcv, State.putBack_fault] at htrace hevent hfault
    have hevent := hevent.congr (State.putBack_cfg ..) (State.putBack_rcv ..) (State.putBack_buf ..)
    exact .inr (.inl ⟨e, htrace, emits_row hrow (.inr ⟨hs, hevent⟩), hfault.trans hf⟩)
  case release hrelease =>
    obtain ⟨e, htrace, hevent, hfault⟩ := releaseFrame_emits hrelease
    exact .inr (.inl ⟨e, htrace, hevent, hfault.trans hf⟩)
  case decoded hd => exact .inr (.inl ⟨_, rfl, ⟨_, hd, rfl⟩, hf⟩)
  case encoded => exact .inr (.inl ⟨_, rfl, rfl, hf⟩)
  case seqNext => exact .inr (.inl ⟨_, rfl, ⟨rfl, rfl⟩, hf⟩)
  case beforeInit hp hi => exact .inr (.inr ⟨.uninit _, ⟨hi, hp, rfl⟩, rfl⟩)
  case fillLength data hp hl => exact .inr (.inr ⟨.fillLength .., ⟨hp, data, rfl, rfl, hl⟩, rfl⟩)
  case fillOverrun data hp hl hr => exact .inr (.inr ⟨.fillOverrun .., ⟨hp, ⟨data, rfl, hl⟩, rfl, hr⟩, rfl⟩)
  case releaseIdle hp => exact .inr (.inr ⟨.releaseIdle, ⟨hp, rfl⟩, rfl⟩)
  case shortHeader hp hl => exact .inr (.inr ⟨.shortHeader _, ⟨hp, _, rfl, rfl, hl⟩, rfl⟩)
  case encodeOversize hp hl => exact .inr (.inr ⟨.encodeOversize _, ⟨hp, ⟨_, _, _, _, _, _, rfl⟩, hl⟩, rfl⟩)

/-- An instruction that leaves a recorded fault has raised it (R122, R123). -/
theorem exec_faulting {s t : State} {i : Instr} (h : exec i s = .next t) (hfault : t.fault ≠ none) :
    ∃ f, Raises s i f ∧ t = s.raised f := by
  obtain ⟨hf, hanswers⟩ := exec_answers h
  obtain ⟨rfl, -⟩ | ⟨-, -, -, hnone⟩ | hraises := hanswers.holds_emits_or_raises hf
  · exact absurd hf hfault
  · exact absurd hnone hfault
  · exact hraises

/-- Settles O33: what a hold, an event and a fault leave on the trace, instruction by instruction. -/
theorem everyStepAppendsOneEntry : Obligations.EveryStepAppendsOneEntry := by
  refine ⟨fun s t i h => ?_, rfl, fun _ => rfl, fun _ => rfl, fun _ _ => rfl, fun _ _ => rfl, fun _ _ => rfl,
    fun _ => rfl, fun _ => rfl, fun _ => rfl, rfl, rfl, rfl, rfl, rfl, rfl, rfl⟩
  obtain ⟨hf, hanswers⟩ := exec_answers h
  obtain hheld | hevent | ⟨f, hraises, rfl⟩ := hanswers.holds_emits_or_raises hf
  · exact .inl hheld
  · exact .inr (.inl hevent)
  · exact .inr (.inr ⟨f, rfl, hraises, rfl⟩)

/-- Settles O34: in the invariant every command answers, and the hold and the faults are excluded. -/
theorem commandsEmitTheirEvents : Obligations.CommandsEmitTheirEvents := by
  refine ⟨fun s i hinv hf _ hready hno => ?_, rfl, fun _ => rfl, fun _ => rfl, fun _ _ => rfl, fun _ _ => rfl,
    fun _ _ => rfl, fun _ => rfl, fun _ => rfl, fun _ => rfl⟩
  obtain ⟨t, h⟩ := exec_total hinv hf i
  obtain ⟨-, hp, hcode⟩ | ⟨e, htrace, hemits, hfault⟩ | ⟨f, hraises, -⟩ :=
    (exec_answers h).2.holds_emits_or_raises hf
  · exact absurd ⟨hcode, hp⟩ hready
  · exact ⟨t, e, h, hfault, htrace, hemits⟩
  · exact absurd hraises (hno f)

end Sys2Proof.Machine
end

section
/-! SUPPORT. The causes of R122, each with the fault an instruction raises on it, and the sticky fault register (spec/60_exceptions.md R122, R123, R127). -/

namespace Sys2Proof.Machine

/-- A FILL whose operand count disagrees with `r` raises F_FILL_LENGTH (R102). -/
theorem fillIdle_fillLength {s : State} {r : Int} {data : List Byte} (hlen : (data.length : Int) ≠ max r 0) :
    fillIdle r data s = .next (s.raised (.fillLength r data.length)) := if_pos hlen

/-- A FILL of more bytes than the block asks for raises F_FILL_OVERRUN (R102). -/
theorem fillIdle_fillOverrun {s : State} {r : Int} {data : List Byte} (hlen : (data.length : Int) = max r 0)
    (hover : (s.space : Int) < r) : fillIdle r data s = .next (s.raised (.fillOverrun r s.space)) := by
  rw [fillIdle, if_neg (not_not.mpr hlen), if_neg (by omega), if_pos hover, raise]

/-- An instruction raises the fault whose cause it meets (R122). -/
theorem exec_of_raises {s : State} {i : Instr} {f : FaultRecord} (hf : s.fault = none) (h : Raises s i f) :
    exec i s = .next (s.raised f) := by
  cases f
  case uninit =>
    obtain ⟨hi, hp, rfl⟩ := h
    exact exec_uninit hi hf hp
  case illegalCmd => exact h.elim
  case fillOverrun =>
    obtain ⟨hp, ⟨data, rfl, hlen⟩, rfl, hover⟩ := h
    exact (exec_fill_idle hf hp ..).trans (fillIdle_fillOverrun hlen hover)
  case fillLength =>
    obtain ⟨hp, data, rfl, rfl, hlen⟩ := h
    exact (exec_fill_idle hf hp ..).trans (fillIdle_fillLength hlen)
  case releaseIdle =>
    obtain ⟨hp, rfl⟩ := h
    exact exec_release_idle hf hp
  case shortHeader =>
    obtain ⟨hp, operand, rfl, rfl, hshort⟩ := h
    exact exec_decode_none hf hp (hdrDecode_none_iff.mpr hshort)
  case encodeOversize =>
    obtain ⟨hp, ⟨type, op, dev, reg, pos, seq, rfl⟩, hover⟩ := h
    exact (exec_encode hf hp ..).trans (if_pos hover)

/-- A reserved code in an unfaulted block raises F_ILLEGAL_CMD (R72, R122). -/
theorem illegalCommand_unfaulted {s : State} (hf : s.fault = none) (code : BitVec 4) :
    illegalCommand code s = .next (s.raised (.illegalCmd code)) := unlessFaulted_none hf _

/-- Settles O35: each cause raises its fault, and a recorded fault had its cause. -/
theorem faultsRaisedOnTheirCauses : Obligations.FaultsRaisedOnTheirCauses :=
  ⟨fun _ _ hf _ => ⟨fun _ => exec_of_raises hf, fun _ => exec_faulting⟩,
    fun _ p hf hcode => ⟨decodeCommand_reserved hcode, illegalCommand_unfaulted hf p.code⟩,
    rfl, rfl, rfl, rfl, rfl, rfl, rfl⟩

/-- An input that is taken is an instruction or a reserved code. -/
theorem takeInput_ne_nothing (x : Input) (s : State) : takeInput x s ≠ .nothing := by
  unfold takeInput
  split
  · simp
  · simp
  · split <;> simp

/-- In a faulted block the step on an offer stops (R123; log 9). -/
theorem step_faulted {s : State} {x : Input} {rest : List Input} {c : FaultCode} (hf : s.fault = some c)
    (hin : s.inputs = x :: rest) : step s = .fault (.quiescent c) := by
  unfold step
  split
  case h_1 hfetch =>
    rw [fetch_head hin (isHeld_eq_false (.inl (by simp [hf])))] at hfetch
    exact (takeInput_ne_nothing _ _ hfetch).elim
  case h_2 i u hfetch =>
    obtain ⟨left, rfl⟩ := fetch_state (.inl ⟨i, hfetch⟩)
    exact exec_faulted hf
  case h_3 code u hfetch =>
    obtain ⟨left, rfl⟩ := fetch_state (.inr ⟨code, hfetch⟩)
    exact unlessFaulted_some (s := s.setInputs left) hf _

/-- A state with a raised fault is no correct end (R153). -/
theorem State.raised_not_correct (s : State) (f : FaultRecord) : ¬ (s.raised f).Correct := by
  rintro ⟨-, hf, -⟩
  simp at hf

/-- Settles O32: the common check stops every instruction, and what leaves a fault has raised it. -/
theorem faultsAreStickyAndPrecise : Obligations.FaultsAreStickyAndPrecise := by
  refine ⟨fun _ _ _ => exec_faulted, fun _ _ _ _ => step_faulted, fun s t i h hfault => ?_⟩
  obtain ⟨f, -, rfl⟩ := exec_faulting h hfault
  exact ⟨⟨f, rfl⟩, s.raised_not_correct f⟩

end Sys2Proof.Machine
end

section
/-! SUPPORT. What power-up, a command before INIT, and INIT itself leave (spec/70_reset_and_hazards.md R140 to R142). -/

namespace Sys2Proof.Machine

/-- Settles O12: power-up lists no cell, and each port that shows a value looks at the phase first. -/
theorem powerUpHoldsNoValue : Obligations.PowerUpHoldsNoValue :=
  ⟨rfl, fun _ => ⟨rfl, rfl, rfl, rfl, fun _ => rfl, rfl, rfl, rfl, rfl, rfl⟩⟩

/-- With no cell listed, `rcv` 0 and the phase UNINIT, no clause of the invariant asks for anything. -/
theorem blockInv_powerUp (c : Config) : BlockInv (State.powerUp c) where
  canonical := List.Pairwise.nil
  inside _ hc := absurd hc List.not_mem_nil
  bounded := Nat.zero_le _
  valued _ ha := absurd ha (Nat.not_lt_zero _)
  idle hp := absurd hp (by simp [State.powerUp])
  present hp := absurd hp (by simp [State.powerUp])
  faults := rfl

/-- Settles O44: State.reset is power-up of the reference configuration. -/
theorem invariantAtPowerUp : Obligations.InvariantAtPowerUp := ⟨blockInv_powerUp, blockInv_powerUp _⟩

/-- Settles O13: of the common checks, those before check 3 pass. -/
theorem commandsBeforeInitRaiseUninit : Obligations.CommandsBeforeInitRaiseUninit :=
  fun _ _ hf hp hi => exec_uninit hi hf hp

/-- In every phase INIT of an unfaulted block is its own effect (R142). -/
theorem exec_init_unfaulted {s : State} (hf : s.fault = none) : exec .init s = ownEffect .init s := by
  rw [exec_init, unlessFaulted_none hf]

/-- Settles O14: INIT's one check is of `fault`, which it does not write; with `rcv` 0 a header is needed. -/
theorem initSetsItsValues : Obligations.InitSetsItsValues := by
  intro s hf
  refine ⟨_, exec_init_unfaulted hf, rfl, rfl, fun _ => rfl, rfl, rfl, hf, rfl, rfl, rfl, ?_⟩
  simp [statusPort, hf]

end Sys2Proof.Machine
end

section
/-! SUPPORT. The hold of a FILL while a frame is presented: what is held, when nothing offered has a step, and what passes a held FILL (spec/70_reset_and_hazards.md R145, R146; assumption log 5, 7). -/

namespace Sys2Proof.Machine

/-- What is held is a FILL, in an unfaulted block with a frame presented (R145). -/
theorem isHeld_iff {s : State} {x : Input} :
    isHeld s x = true ↔ s.fault = none ∧ s.phase = .present ∧ isFill x = true := by
  simp [isHeld, and_assoc]

/-- The command 0010 is a FILL (R70). -/
theorem isFill_command {p : CommandPort} (h : p.code = 0b0010#4) : isFill (.command p) = true := by
  simp [isFill, h]

/-- No offer is ready exactly where every one of them is held. -/
theorem firstReady_eq_none_iff {s : State} {xs : List Input} :
    firstReady s xs = none ↔ ∀ x ∈ xs, isHeld s x = true := by
  induction xs with
  | nil => simp [firstReady]
  | cons x xs ih =>
    rw [List.forall_mem_cons, ← ih]
    cases hx : isHeld s x with
    | false => simp [firstReady_head hx]
    | true =>
      cases hrest : firstReady s xs with
      | none => simp [firstReady, hx, hrest]
      | some ready => simp [firstReady_held hx hrest]

/-- A step finds nothing to take exactly where every offer is held. -/
theorem fetch_eq_nothing_iff {s : State} : fetch s = .nothing ↔ ∀ x ∈ s.inputs, isHeld s x = true := by
  rw [← firstReady_eq_none_iff, fetch]
  split
  · simp [*]
  · simp [*, takeInput_ne_nothing]

/-- A step that finds nothing to take changes nothing (R12). -/
theorem step_of_all_held {s : State} (h : ∀ x ∈ s.inputs, isHeld s x = true) : step s = .next s := by
  simp [step, fetch_eq_nothing_iff.mpr h]

/-- Settles O23: the one FILL offered is held. -/
theorem fillHoldsWhilePresent : Obligations.FillHoldsWhilePresent := by
  refine fun s hf hp => ⟨exec_fill_present hf hp, fun p hcode hin => step_of_all_held ?_⟩
  rw [hin, List.forall_mem_singleton]
  exact isHeld_iff.mpr ⟨hf, hp, isFill_command hcode⟩

/-- In PRESENT a frame row holds (R145; log 7). -/
theorem exec_row_present {i : Instr} {kind : BitVec 4} {d : BitVec 12} {b : FrameBody} {s : State}
    (hrow : (i, kind) ∈ frameRows d b) (hf : s.fault = none) (hp : s.phase = .present) : exec i s = .next s := by
  obtain ⟨-, -, -, -, heffect⟩ := frameRow_spec hrow s.cfg
  rw [exec_ready hf (by simp [hp]), heffect]
  exact if_pos hp

/-- Settles O24: stream octets and FILLs alike are held. -/
theorem streamHoldsWhilePresent : Obligations.StreamHoldsWhilePresent := by
  refine fun s hf hp => ⟨fun d b i kind hrow => exec_row_present hrow hf hp, fun hfills => step_of_all_held ?_⟩
  intro x hx
  obtain ⟨octets, rfl⟩ | ⟨p, hcode, rfl⟩ := hfills x hx
  · exact isHeld_iff.mpr ⟨hf, hp, rfl⟩
  · exact isHeld_iff.mpr ⟨hf, hp, isFill_command hcode⟩

/-- What stands right behind a held offer and is not held takes the step, and the held one stays offered (R146). -/
theorem step_behind_held {s : State} {x y : Input} {rest : List Input} {i : Instr} (hin : s.inputs = x :: y :: rest)
    (hx : isHeld s x = true) (hy : isHeld s y = false) (hdec : decodeInput s.cfg y = .ok i) :
    step s = exec i (s.setInputs (x :: rest)) := by
  have hready : firstReady s s.inputs = some (y, x :: rest) := hin ▸ firstReady_held hx (firstReady_head hy rest)
  have hfetch : fetch s = .instr i (s.setInputs (x :: rest)) := by
    simp only [fetch, hready]
    exact takeInput_decoded hdec
  simp only [step, hfetch]

/-- Behind a held FILL a command with another code takes the step (R146). -/
theorem step_behind_held_fill {s : State} {p q : CommandPort} {rest : List Input} {i : Instr} (hf : s.fault = none)
    (hp : s.phase = .present) (hfill : p.code = 0b0010#4) (hin : s.inputs = .command p :: .command q :: rest)
    (hq : q.code ≠ 0b0010#4) (hdec : decodeCommand q = .ok i) :
    step s = exec i (s.setInputs (.command p :: rest)) :=
  step_behind_held hin (isHeld_iff.mpr ⟨hf, hp, isFill_command hfill⟩)
    (isHeld_eq_false (.inr (.inr ⟨q, rfl, hq⟩))) hdec

/-- Settles O25: RELEASE and INIT are not held, and outside PRESENT neither is the FILL. -/
theorem heldFillStaysOffered : Obligations.HeldFillStaysOffered := by
  intro s p q rest hf hfill
  refine ⟨fun hp hin hq => ?_, fun hp hin hq => ?_, fun hp hin => ?_⟩
  · exact step_behind_held_fill hf hp hfill hin (by simp [hq]) (by simp [decodeCommand, hq])
  · exact step_behind_held_fill hf hp hfill hin (by simp [hq]) (by simp [decodeCommand, hq])
  · exact stepRunsTheOfferedInstruction.1 s _ rest _ hin (.inr (.inl hp)) (by simp [decodeInput, decodeCommand, hfill])

end Sys2Proof.Machine
end

section
/-! SUPPORT. How a run ends, and where it is stuck (spec/70_reset_and_hazards.md R146, R153; assumption log 5). -/

namespace Sys2Proof.Machine

/-- Stuck is unfaulted with a frame presented, as only there anything is held (R145, R146). -/
theorem State.Stuck.fault_phase {s : State} (h : s.Stuck) : s.fault = none ∧ s.phase = .present := by
  obtain ⟨hsome, hheld⟩ := h
  obtain ⟨x, hx⟩ := List.exists_mem_of_ne_nil _ hsome
  obtain ⟨hf, hp, -⟩ := isHeld_iff.mp (hheld x hx)
  exact ⟨hf, hp⟩

/-- A correct end in PRESENT has a frame pending, which the frame port shows (R34, R153). -/
theorem BlockInv.framePending {s : State} (hinv : BlockInv s) (hc : s.Correct) (hp : s.phase = .present) :
    s.FramePending ∧ (∀ n, ¬ s.IdleEnd n) ∧ ∃ frame, framePort s = some frame := by
  obtain ⟨hdr, payload, hport, -⟩ := hinv.present hp
  refine ⟨⟨hc, hp⟩, fun n hend => ?_, _, hport⟩
  obtain ⟨-, hidle, -⟩ := hend
  simp [hp] at hidle

/-- A correct end in IDLE holds the bytes of an incomplete frame (R29, R153). -/
theorem BlockInv.idleEnd {s : State} (hinv : BlockInv s) (hc : s.Correct) (hp : s.phase = .idle) :
    ¬ s.FramePending ∧ s.IdleEnd s.rcv ∧ ∃ bytes, Holds s bytes ∧
      (bytes.length < hdrLen ∨ bytes.length < hdrLen + (frontLen s.cfg bytes).toNat) := by
  obtain ⟨bytes, hbytes⟩ := holds_of_valued hinv.valued
  refine ⟨fun hend => ?_, ⟨hc, hp, rfl⟩, bytes, hbytes, (hinv.idle_bytes hbytes hp).imp_right And.right⟩
  obtain ⟨-, hpresent⟩ := hend
  simp [hp] at hpresent

/-- Every offer is held where none is left, or where the block is stuck. -/
theorem all_held_iff {s : State} : (∀ x ∈ s.inputs, isHeld s x = true) ↔ s.Ended ∨ s.Stuck := by
  by_cases hin : s.inputs = [] <;> simp [State.Ended, State.Stuck, hin]

/-- Settles O53: a correct end is in PRESENT or in IDLE, and a step without effect has every offer held. -/
theorem runsEndOrAreStuck : Obligations.RunsEndOrAreStuck := by
  refine ⟨fun s hend => step_of_all_held (all_held_iff.mpr (.inl hend)), fun s hinv hc => ?_, fun s hfault hc => ?_,
    fun s hstuck => ?_, fun s => fetch_eq_nothing_iff.trans all_held_iff⟩
  · by_cases hp : s.phase = .present
    · exact .inl (hinv.framePending hc hp)
    · have ⟨_, _, hready⟩ := hc
      exact .inr (hinv.idleEnd hc (phase_idle_of_ne hready hp))
  · obtain ⟨-, hnone, -⟩ := hc
    exact hfault hnone
  · obtain ⟨hf, hp⟩ := hstuck.fault_phase
    obtain ⟨hsome, hheld⟩ := hstuck
    refine ⟨step_of_all_held hheld, hf, hp, hsome, fun hc => ?_⟩
    obtain ⟨hend, -⟩ := hc
    exact hsome hend

end Sys2Proof.Machine
end
